-- ==== Sys2Proof/Word.lean ====
section
/-! DEFINITION. The word types of the LS-8 core: the byte and the 9-bit code address. -/

namespace Sys2Proof

/-- A byte: 8 bits, an unsigned value 0..255 (rule R7). -/
abbrev Byte := BitVec 8

/-- A value of the program counter or an entry of the CallStack: 9 bits, so that 256 ("one past the end of
memory") can be held without a wrap to 0 (rules R13, R18). -/
abbrev CodeAddr := BitVec 9

end Sys2Proof
end

