-- ==== Sys2Proof/Syntax.lean ====
section
/-! DEFINITION. The 21 instructions of rule R48. An operand is the RAW operand byte (rule R46): a register number
above 7 is a legal thing to find in memory and fails only when the handler runs (rules R11, R53; log 23). -/

namespace Sys2Proof

/-- One constructor per row of spec/opcode_table.json, in the table's order. `o1` and `o2` are the operand bytes
in the order they stand in memory (rules R36, R54). -/
inductive Instr where
  /-- HLT (R107). -/
  | hlt
  /-- RET (R106). -/
  | ret
  /-- PUSH Ra (R95). -/
  | push (o1 : Byte)
  /-- POP Ra (R96). -/
  | pop (o1 : Byte)
  /-- PRN Ra (R92). -/
  | prn (o1 : Byte)
  /-- CALL Ra (R105). -/
  | call (o1 : Byte)
  /-- JMP Ra (R101). -/
  | jmp (o1 : Byte)
  /-- JEQ Ra (R103). -/
  | jeq (o1 : Byte)
  /-- JNE Ra (R104). -/
  | jne (o1 : Byte)
  /-- NOT Ra (R83). -/
  | not (o1 : Byte)
  /-- LDI Ra,imm (R90): `o2` is the immediate. -/
  | ldi (o1 o2 : Byte)
  /-- ST Ra,Rb (R91): `o1` names the address register, `o2` the data register. -/
  | st (o1 o2 : Byte)
  /-- ADD Ra,Rb (R78). -/
  | add (o1 o2 : Byte)
  /-- MUL Ra,Rb (R79). -/
  | mul (o1 o2 : Byte)
  /-- MOD Ra,Rb (R86). -/
  | mod (o1 o2 : Byte)
  /-- CMP Ra,Rb (R100). -/
  | cmp (o1 o2 : Byte)
  /-- AND Ra,Rb (R80). -/
  | and (o1 o2 : Byte)
  /-- OR Ra,Rb (R81). -/
  | or (o1 o2 : Byte)
  /-- XOR Ra,Rb (R82). -/
  | xor (o1 o2 : Byte)
  /-- SHL Ra,Rb (R84). -/
  | shl (o1 o2 : Byte)
  /-- SHR Ra,Rb (R85). -/
  | shr (o1 o2 : Byte)
  deriving DecidableEq, Repr

end Sys2Proof
end

