-- ==== Sys2Proof/Decode.lean ====
section
/-! DEFINITION. The decoder (rules R45 to R53, R60): the opcode table, decoding of a byte sequence, total and rejecting by
name; and after it the encoder. The opcode bytes are the spec's decision D1 (log 1). -/

namespace Sys2Proof

/-! ## The opcode bytes of rule R48 -/

abbrev Opcode.hlt : Byte := 0x01
abbrev Opcode.ret : Byte := 0x11
abbrev Opcode.push : Byte := 0x45
abbrev Opcode.pop : Byte := 0x46
abbrev Opcode.prn : Byte := 0x47
abbrev Opcode.call : Byte := 0x50
abbrev Opcode.jmp : Byte := 0x54
abbrev Opcode.jeq : Byte := 0x55
abbrev Opcode.jne : Byte := 0x56
abbrev Opcode.not : Byte := 0x69
abbrev Opcode.ldi : Byte := 0x82
abbrev Opcode.st : Byte := 0x84
abbrev Opcode.add : Byte := 0xA0
abbrev Opcode.mul : Byte := 0xA2
abbrev Opcode.mod : Byte := 0xA4
abbrev Opcode.cmp : Byte := 0xA7
abbrev Opcode.and : Byte := 0xA8
abbrev Opcode.or : Byte := 0xAA
abbrev Opcode.xor : Byte := 0xAB
abbrev Opcode.shl : Byte := 0xAC
abbrev Opcode.shr : Byte := 0xAD

/-! ## Decoding -/

/-- What a row of the opcode table tells the cycle: the format, hence the operand count, and the instruction to
build from the operand bytes (rules R45, R60). -/
inductive RowShape where
  | f0 (i : Instr)
  | f1 (mk : Byte → Instr)
  | f2 (mk : Byte → Byte → Instr)

/-- The number of operand bytes, a static property of the opcode (rules R45, R50). -/
def RowShape.operandCount : RowShape → Nat
  | .f0 _ => 0
  | .f1 _ => 1
  | .f2 _ => 2

/-- The table of rule R48. -/
def opcodeTable : List (Byte × RowShape) :=
  [(Opcode.hlt, .f0 .hlt), (Opcode.ret, .f0 .ret),
   (Opcode.push, .f1 .push), (Opcode.pop, .f1 .pop), (Opcode.prn, .f1 .prn), (Opcode.call, .f1 .call),
   (Opcode.jmp, .f1 .jmp), (Opcode.jeq, .f1 .jeq), (Opcode.jne, .f1 .jne), (Opcode.not, .f1 .not),
   (Opcode.ldi, .f2 .ldi), (Opcode.st, .f2 .st),
   (Opcode.add, .f2 .add), (Opcode.mul, .f2 .mul), (Opcode.mod, .f2 .mod), (Opcode.cmp, .f2 .cmp),
   (Opcode.and, .f2 .and), (Opcode.or, .f2 .or), (Opcode.xor, .f2 .xor),
   (Opcode.shl, .f2 .shl), (Opcode.shr, .f2 .shr)]

/-- `decode(op)` of rule R60: the row whose opcode equals `op` on all eight bits, or "unknown" (rules R51, R52). -/
def decodeOpcode (op : Byte) : Option RowShape :=
  opcodeTable.lookup op

/-- Why a byte sequence is no instruction. -/
inductive DecodeError where
  /-- There is no opcode byte (the fetch address is beyond memory, rule R63). -/
  | noOpcode
  /-- The byte is none of the 21 opcodes (rules R52, R61). -/
  | unknownOpcode (op : Byte)
  /-- An operand byte of a known opcode is missing (its address is beyond memory, rule R64). -/
  | operandMissing (op : Byte)
  deriving DecidableEq, Repr

/-- Take the operand bytes of a row, operand 1 first (rule R46); `none` if one is missing. -/
def RowShape.takeOperands : RowShape → List Byte → Option (Instr × List Byte)
  | .f0 i, rest => some (i, rest)
  | .f1 mk, o1 :: rest => some (mk o1, rest)
  | .f1 _, [] => none
  | .f2 mk, o1 :: o2 :: rest => some (mk o1 o2, rest)
  | .f2 _, [_] => none
  | .f2 _, [] => none

/-- Decode the instruction at the head of a byte sequence, and answer the bytes after it (rules R45, R51, R69: the
opcode is looked at before any operand byte). -/
def decode : List Byte → Except DecodeError (Instr × List Byte)
  | [] => .error .noOpcode
  | op :: rest =>
    match decodeOpcode op with
    | none => .error (.unknownOpcode op)
    | some row =>
      match row.takeOperands rest with
      | none => .error (.operandMissing op)
      | some r => .ok r

/-! ## Encoding -/

/-- The opcode byte of an instruction (rule R48). -/
def Instr.opcode : Instr → Byte
  | .hlt => Opcode.hlt
  | .ret => Opcode.ret
  | .push _ => Opcode.push
  | .pop _ => Opcode.pop
  | .prn _ => Opcode.prn
  | .call _ => Opcode.call
  | .jmp _ => Opcode.jmp
  | .jeq _ => Opcode.jeq
  | .jne _ => Opcode.jne
  | .not _ => Opcode.not
  | .ldi _ _ => Opcode.ldi
  | .st _ _ => Opcode.st
  | .add _ _ => Opcode.add
  | .mul _ _ => Opcode.mul
  | .mod _ _ => Opcode.mod
  | .cmp _ _ => Opcode.cmp
  | .and _ _ => Opcode.and
  | .or _ _ => Opcode.or
  | .xor _ _ => Opcode.xor
  | .shl _ _ => Opcode.shl
  | .shr _ _ => Opcode.shr

/-- The operand bytes of an instruction, operand 1 first (rules R36, R45). -/
def Instr.operandBytes : Instr → List Byte
  | .hlt => []
  | .ret => []
  | .push o1 => [o1]
  | .pop o1 => [o1]
  | .prn o1 => [o1]
  | .call o1 => [o1]
  | .jmp o1 => [o1]
  | .jeq o1 => [o1]
  | .jne o1 => [o1]
  | .not o1 => [o1]
  | .ldi o1 o2 => [o1, o2]
  | .st o1 o2 => [o1, o2]
  | .add o1 o2 => [o1, o2]
  | .mul o1 o2 => [o1, o2]
  | .mod o1 o2 => [o1, o2]
  | .cmp o1 o2 => [o1, o2]
  | .and o1 o2 => [o1, o2]
  | .or o1 o2 => [o1, o2]
  | .xor o1 o2 => [o1, o2]
  | .shl o1 o2 => [o1, o2]
  | .shr o1 o2 => [o1, o2]

/-- The bytes of an instruction, at ascending addresses (rules R36, R45). -/
def encode (i : Instr) : List Byte :=
  i.opcode :: i.operandBytes

/-- The operand byte that names register `r` (rule R54: `Ra` encodes as operand byte `a`). -/
def regByte (r : Fin 8) : Byte :=
  BitVec.ofNat 8 r.val

/-! ## The words of spec/opcode_table.json -/

/-- The three bytes of a table word: bit 0 is the least significant bit of the first byte, a later byte's bits count
on from it, and every bit from `nbits` up is 0. -/
def tableBytes (nbits w : Nat) : List Byte :=
  let v := w % 2 ^ nbits
  [BitVec.ofNat 8 v, BitVec.ofNat 8 (v / 2 ^ 8), BitVec.ofNat 8 (v / 2 ^ 16)]

/-- The instruction the decoder reads from a table word. -/
def decodeTableWord (nbits w : Nat) : Option Instr :=
  match decode (tableBytes nbits w) with
  | .ok (i, _) => some i
  | .error _ => none

end Sys2Proof
end

