-- ==== Sys2Proof/Config.lean ====
section
/-! DEFINITION. The parameters of rule R5 that stay fixed during a run. `IMAGE` and `MEM_REST` are arguments of
`Machine.State.launch`; the opcode map and the error codes are fixed by the spec (rule R6). -/

namespace Sys2Proof

/-- The configuration of rule R5. Log 5, 6, 7 and 21. -/
structure Config where
  /-- `SP_INIT`: R7 after reset, and the ceiling POP checks against. -/
  spInit : Byte
  /-- `STACK_FLOOR`: PUSH fails if it would leave SP below it. -/
  stackFloor : Byte
  /-- `CALLSTACK_DEPTH`: the capacity of the CallStack, `none` for unbounded. -/
  callStackDepth : Option Nat
  deriving DecidableEq, Repr

/-- The defaults of rule R5 (0xF4 is PRESUMED by the spec itself, decision D5; log 5). -/
def Config.default : Config :=
  { spInit := 0xF4, stackFloor := 0x00, callStackDepth := none }

/-- The constraints of rule R5: `STACK_FLOOR <= SP_INIT`, and a finite depth is at least 1. -/
abbrev Config.wf (c : Config) : Prop :=
  c.stackFloor.toNat ≤ c.spInit.toNat ∧ ∀ d ∈ c.callStackDepth, 1 ≤ d

end Sys2Proof
end

