-- ==== Sys2Proof/Machine/State.lean ====
section
/-! DEFINITION. The state of the core (rule R25), as plain data, and its value after reset (rule R130); with the reasons a
step of the HOST's interface can stop. -/

namespace Sys2Proof.Machine

/-- The eight general registers R0 to R7 (rules R10, R12). -/
structure Regs where
  r0 : Byte
  r1 : Byte
  r2 : Byte
  r3 : Byte
  r4 : Byte
  r5 : Byte
  r6 : Byte
  r7 : Byte
  deriving DecidableEq, Repr

/-- The flag register: Equal, LessThan, GreaterThan. It has no bit positions (rule R15). -/
structure Flags where
  e : Bool
  l : Bool
  g : Bool
  deriving DecidableEq, Repr

/-- The engine's run status (rule R19). -/
inductive RunStatus where
  | running
  | halted
  | faulted
  deriving DecidableEq, Repr

/-- The seven error kinds of rule R110. -/
inductive ErrorKind where
  | addressOutOfRange
  | unknownOpcode
  | unsupportedALUOperation
  | divideByZero
  | stackOverflow
  | stackUnderflow
  | callStackUnderflow
  deriving DecidableEq, Repr

/-- The fault record of rule R20: the kind, the address of the failing instruction's opcode, and the opcode byte,
absent when the opcode fetch itself failed. -/
structure FaultRecord where
  kind : ErrorKind
  pc : CodeAddr
  opcode : Option Byte
  deriving DecidableEq, Repr

/-- The memory `M` of 256 cells (rule R30) as a list of (address, byte) pairs. The canonical form is `Memory.wf`; what
an unlisted address reads as is `Memory.unlisted`. -/
abbrev Memory := List Host.Cell

/-- The whole state of rule R25, and the configuration it runs under (`cfg`, the model's own field: log 21). -/
structure State where
  /-- `x[0..7]` (R10). -/
  regs : Regs
  /-- The program counter, 0..256 (R13). -/
  pc : CodeAddr
  /-- `FL` (R15). -/
  flags : Flags
  /-- `M[0..255]` (R30). -/
  mem : Memory
  /-- The CallStack, its top first (R18; log 22). -/
  cs : List CodeAddr
  /-- `status` (R19). -/
  status : RunStatus
  /-- The fault record, absent unless FAULTED (R20). -/
  fault : Option FaultRecord
  /-- `OUT`, oldest byte first (R21). -/
  out : List Byte
  /-- The parameters of the step (R5); no instruction writes them. -/
  cfg : Config
  deriving DecidableEq, Repr

/-- Host-level faults. THERE ARE NONE: every error of this core is the fatal stop of rule R112, whose whole effect the
spec describes, so it is a NEXT state with `status = FAULTED` and its record in `fault` (log 20); and in a terminal
state the core stays as it is (rule R68, log 17). -/
inductive Fault where
  deriving DecidableEq, Repr

/-- Host-level refusals. No instruction and no step of this model answers one; `State.launch` does. -/
inductive Refusal where
  /-- Raised by `exec`'s arm of an instruction that has no meaning yet (no arm of this model). Safe. -/
  | notModelled (mnemonic : String)
  /-- Raised by `State.launch` for an image of more than 256 bytes: "the launch is refused" (rule R135). Safe. -/
  | imageTooLong
  /-- Raised by `State.launch` for a configuration outside the constraints of rule R5. Safe. -/
  | badConfiguration
  deriving DecidableEq, Repr

/-- The reset value of every state element of rule R130 under configuration `c`, with no cell of memory listed. -/
def State.resetWith (c : Config) : State :=
  { regs := { r0 := 0, r1 := 0, r2 := 0, r3 := 0, r4 := 0, r5 := 0, r6 := 0, r7 := c.spInit }
    pc := 0
    flags := { e := false, l := false, g := false }
    mem := []
    cs := []
    status := .running
    fault := none
    out := []
    cfg := c }

/-- The machine right after reset (rule R130), under the default configuration of rule R5, no image loaded, and every
cell of memory at `Memory.unlisted` (DESIGN CHOICE, log 11). -/
def State.reset : State :=
  State.resetWith Config.default

end Sys2Proof.Machine
end

