-- ==== Sys2Proof/Machine/Ops.lean ====
section
/-! DEFINITION. The named operations the meanings are built from: the register file, memory, the program counter, the
CallStack, the sink, the fatal stop (rule R112), and the fetch of an instruction's bytes. -/

namespace Sys2Proof.Machine

/-! ## The register file (rules R8, R10) -/

/-- `x[i]`. -/
def Regs.get (x : Regs) (i : Fin 8) : Byte :=
  match i with
  | 0 => x.r0
  | 1 => x.r1
  | 2 => x.r2
  | 3 => x.r3
  | 4 => x.r4
  | 5 => x.r5
  | 6 => x.r6
  | 7 => x.r7

/-- `x[i] <- v`. No register is hard-wired (rule R10). -/
def Regs.set (x : Regs) (i : Fin 8) (v : Byte) : Regs :=
  match i with
  | 0 => { x with r0 := v }
  | 1 => { x with r1 := v }
  | 2 => { x with r2 := v }
  | 3 => { x with r3 := v }
  | 4 => { x with r4 := v }
  | 5 => { x with r5 := v }
  | 6 => { x with r6 := v }
  | 7 => { x with r7 := v }

/-- R7, the stack pointer of PUSH and POP (rules R4, R12). -/
abbrev spIndex : Fin 8 := 7

/-- `SP`: the value of R7. -/
def State.sp (s : State) : Byte :=
  s.regs.get spIndex

/-- Write register `i` of the state. -/
def State.setReg (s : State) (i : Fin 8) (v : Byte) : State :=
  { s with regs := s.regs.set i v }

/-! ## Memory (rules R30 to R35) -/

/-- What an address that the list does not hold reads as: DESIGN CHOICE, log 11. Every contents of the 256 cells is
still some `Memory`, so this fixes the representation and the contents at `State.reset`, nothing else. -/
def Memory.unlisted : Byte := 0x00

/-- The byte in cell `a`. -/
def Memory.read : Memory → Nat → Byte
  | [], _ => Memory.unlisted
  | (k, b) :: m, a => if k = a then b else Memory.read m a

/-- The list without address `a`. -/
def Memory.erase (m : Memory) (a : Nat) : Memory :=
  m.filter fun c => c.1 != a

/-- Put `(a, v)` before the first entry of a larger address. -/
def Memory.insert : Memory → Nat → Byte → Memory
  | [], a, v => [(a, v)]
  | (k, b) :: m, a, v => if a < k then (a, v) :: (k, b) :: m else (k, b) :: Memory.insert m a v

/-- `M[a] <- v`, keeping the canonical form: the value an unlisted address reads as is not listed. -/
def Memory.write (m : Memory) (a : Nat) (v : Byte) : Memory :=
  if v = Memory.unlisted then Memory.erase m a else Memory.insert (Memory.erase m a) a v

/-- The canonical form: addresses strictly rising and inside 0..255, no entry equal to the unlisted value. -/
abbrev Memory.wf (m : Memory) : Prop :=
  m.Pairwise (fun c d => c.1 < d.1) ∧ ∀ c ∈ m, c.1 < 256 ∧ c.2 ≠ Memory.unlisted

/-- The canonical memory whose cells `base .. base + count - 1` hold `f`. -/
def Memory.tabulate (f : Nat → Byte) : (count base : Nat) → Memory
  | 0, _ => []
  | n + 1, a =>
    if f a = Memory.unlisted then Memory.tabulate f n (a + 1) else (a, f a) :: Memory.tabulate f n (a + 1)

/-- `MemRead(addr, 1)` of rule R31, for an unbounded integer address. -/
def memRead (m : Memory) (addr : Int) : Except ErrorKind Byte :=
  if 0 ≤ addr ∧ addr ≤ 255 then .ok (Memory.read m addr.toNat) else .error .addressOutOfRange

/-- `MemWrite(addr, 1, v)` of rule R32, for an unbounded integer address. -/
def memWrite (m : Memory) (addr : Int) (v : Byte) : Except ErrorKind Memory :=
  if 0 ≤ addr ∧ addr ≤ 255 then .ok (Memory.write m addr.toNat v) else .error .addressOutOfRange

/-- The state with memory `m`. -/
def State.setMem (s : State) (m : Memory) : State :=
  { s with mem := m }

/-! ## Program counter, CallStack, sink, status -/

/-- Step 6 of rule R62: `pc <- pc + 1 + n` after an instruction of `n` operand bytes that did not redirect (rule R65). -/
def State.advance (s : State) (n : Nat) : State :=
  { s with pc := s.pc + BitVec.ofNat 9 (1 + n) }

/-- `pc <- target` (rule R8): the instruction redirects. -/
def State.redirect (s : State) (target : CodeAddr) : State :=
  { s with pc := target }

/-- `CS.push(v)` (rule R18): the top of the CallStack is the head of the list. -/
def State.pushCall (s : State) (ret : CodeAddr) : State :=
  { s with cs := ret :: s.cs }

/-- The CallStack becomes `l` (the second half of `CS.pop()`, rule R18). -/
def State.setCalls (s : State) (l : List CodeAddr) : State :=
  { s with cs := l }

/-- The CallStack holds `d` entries and its capacity is `d` (rule R105; never with an unbounded CallStack). -/
def State.callStackFull (s : State) : Bool :=
  match s.cfg.callStackDepth with
  | none => false
  | some d => s.cs.length == d

/-- `emit(v)`: append the byte to OUT (rule R21). The sink is always ready (log 15). -/
def State.emit (s : State) (v : Byte) : State :=
  { s with out := s.out ++ [v] }

/-- The flags become `f` (CMP only, rule R16). -/
def State.setFlags (s : State) (f : Flags) : State :=
  { s with flags := f }

/-- `status <- HALTED` (rule R107). -/
def State.halt (s : State) : State :=
  { s with status := .halted }

/-! ## Errors -/

/-- The numeric code of an error kind (rule R110, decision D8). -/
def ErrorKind.code : ErrorKind → Nat
  | .addressOutOfRange => 1
  | .unknownOpcode => 2
  | .unsupportedALUOperation => 3
  | .divideByZero => 4
  | .stackOverflow => 5
  | .stackUnderflow => 6
  | .callStackUnderflow => 7

/-- TAKING AN ERROR: the fatal stop of rule R112. The status becomes FAULTED and the record (kind, pc, opcode) is
written; registers, flags, memory, CS, OUT and pc stay as the previous instruction left them. There is no vector, no
handler and NO RETURN from it (rule R114), so no operation stands beside it. -/
def State.fatalStop (s : State) (k : ErrorKind) (op : Option Byte) : State :=
  { s with status := .faulted, fault := some { kind := k, pc := s.pc, opcode := op } }

/-- A check that raises `k` when it fails. -/
def require (c : Bool) (k : ErrorKind) : Except ErrorKind Unit :=
  if c then .ok () else .error k

/-- The end of a handler: the state it made, or the fatal stop of rule R112 on the state it began with (so a raising
handler applies none of its effects). `op` is the opcode of the instruction. -/
def conclude (s : State) (op : Byte) (r : Except ErrorKind State) : Host.Outcome State Fault Refusal :=
  match r with
  | .ok t => .next t
  | .error k => .next (s.fatalStop k (some op))

/-! ## Fetch (steps 1 to 4 of rule R62) -/

/-- The bytes at `addr`, `addr + 1`, ..., `count` of them, ending early at the top of memory (rule R31). -/
def codeBytes (m : Memory) : (count addr : Nat) → List Byte
  | 0, _ => []
  | n + 1, a =>
    match memRead m a with
    | .ok b => b :: codeBytes m n (a + 1)
    | .error _ => []

/-- Fetch and decode the instruction at `pc`, or the error kind and recorded opcode of rules R61, R63 and R64. No
instruction is longer than three bytes (rule R45), and a read has no side effect (rule R31). -/
def fetch (s : State) : Except (ErrorKind × Option Byte) Instr :=
  match decode (codeBytes s.mem 3 s.pc.toNat) with
  | .ok (i, _) => .ok i
  | .error .noOpcode => .error (.addressOutOfRange, none)
  | .error (.unknownOpcode op) => .error (.unknownOpcode, some op)
  | .error (.operandMissing op) => .error (.addressOutOfRange, some op)

/-- Store bytes at ascending addresses; a byte whose address is above 255 has no cell and is dropped. -/
def Memory.load (m : Memory) (addr : Nat) : List Byte → Memory
  | [] => m
  | b :: bs => Memory.load (if addr < 256 then Memory.write m addr b else m) (addr + 1) bs

end Sys2Proof.Machine
end

