-- ==== Sys2Proof/Machine/Operands.lean ====
section
/-! DEFINITION. The operand forms (rules R11, R46, R47): a register index, and LDI's immediate, which is the operand byte as
it stands and needs no operation; and the register value used as a jump target (rule R109). -/

namespace Sys2Proof.Machine

/-- `RegIndex(b)` of rule R11: the whole byte is the register number; 8..255 is an error, never masked. -/
def regIndex (b : Byte) : Except ErrorKind (Fin 8) :=
  if h : b.toNat < 8 then .ok ⟨b.toNat, h⟩ else .error .addressOutOfRange

/-- `zext_9(v)` (rules R7, R109). -/
def zext9 (v : Byte) : CodeAddr :=
  v.setWidth 9

end Sys2Proof.Machine
end

