-- ==== Sys2Proof/Machine/Alu.lean ====
section
/-! DEFINITION. The ALU (rules R75 to R77) and the ALU instructions ADD, MUL, MOD, AND, OR, XOR, SHL, SHR and NOT
(rules R78 to R87). -/

namespace Sys2Proof.Machine

/-- The nine operation selects of rule R75. -/
inductive AluOp where
  | add
  | mul
  | and
  | or
  | xor
  | not
  | shl
  | shr
  | mod
  deriving DecidableEq, Repr

/-- One of the nine operations on two bytes (the table of rule R75). A shift amount is `b mod 8`. -/
def AluOp.apply (op : AluOp) (a b : Byte) : Except ErrorKind Byte :=
  match op with
  | .add => .ok (a + b)
  | .mul => .ok (a * b)
  | .and => .ok (a &&& b)
  | .or => .ok (a ||| b)
  | .xor => .ok (a ^^^ b)
  | .not => .ok (~~~ a)
  | .shl => .ok (a <<< (b.toNat % 8))
  | .shr => .ok (a >>> (b.toNat % 8))
  | .mod => if b = 0 then .error .divideByZero else .ok (a % b)

/-- The ALU at its own interface (rules R75, R76): `none` is an operation select outside the nine. No instruction
presents one (log 19). -/
def alu (sel : Option AluOp) (a b : Byte) : Except ErrorKind Byte :=
  match sel with
  | none => .error .unsupportedALUOperation
  | some op => op.apply a b

/-- The handler the two-operand ALU instructions share (rule R87): both register indexes are checked, both registers
read, the ALU invoked, and only then the first register written. -/
def aluBinary (sel : AluOp) (op : Byte) (o1 o2 : Byte) (s : State) : Host.Outcome State Fault Refusal :=
  conclude s op do
    let ra ← regIndex o1
    let rb ← regIndex o2
    let r ← alu (some sel) (s.regs.get ra) (s.regs.get rb)
    .ok ((s.setReg ra r).advance 2)

/-- ADD Ra,Rb: `r = (a + b) mod 256` (R78). -/
def execAdd (o1 o2 : Byte) (s : State) : Host.Outcome State Fault Refusal :=
  aluBinary .add Opcode.add o1 o2 s

/-- MUL Ra,Rb: `r = (a * b) mod 256` (R79). -/
def execMul (o1 o2 : Byte) (s : State) : Host.Outcome State Fault Refusal :=
  aluBinary .mul Opcode.mul o1 o2 s

/-- MOD Ra,Rb: `r = a mod b`, or DivideByZero (R86). -/
def execMod (o1 o2 : Byte) (s : State) : Host.Outcome State Fault Refusal :=
  aluBinary .mod Opcode.mod o1 o2 s

/-- AND Ra,Rb: `r = a & b` (R80). -/
def execAnd (o1 o2 : Byte) (s : State) : Host.Outcome State Fault Refusal :=
  aluBinary .and Opcode.and o1 o2 s

/-- OR Ra,Rb: `r = a | b` (R81). -/
def execOr (o1 o2 : Byte) (s : State) : Host.Outcome State Fault Refusal :=
  aluBinary .or Opcode.or o1 o2 s

/-- XOR Ra,Rb: `r = a ^ b` (R82). -/
def execXor (o1 o2 : Byte) (s : State) : Host.Outcome State Fault Refusal :=
  aluBinary .xor Opcode.xor o1 o2 s

/-- SHL Ra,Rb: `r = (a << (b mod 8)) mod 256` (R84). -/
def execShl (o1 o2 : Byte) (s : State) : Host.Outcome State Fault Refusal :=
  aluBinary .shl Opcode.shl o1 o2 s

/-- SHR Ra,Rb: `r = a >> (b mod 8)`, logical, no complement (R85). -/
def execShr (o1 o2 : Byte) (s : State) : Host.Outcome State Fault Refusal :=
  aluBinary .shr Opcode.shr o1 o2 s

/-- NOT Ra: one operand; the ALU's `b` is driven with 0 and ignored (R83). -/
def execNot (o1 : Byte) (s : State) : Host.Outcome State Fault Refusal :=
  conclude s Opcode.not do
    let ra ← regIndex o1
    let r ← alu (some .not) (s.regs.get ra) 0
    .ok ((s.setReg ra r).advance 1)

end Sys2Proof.Machine
end

