-- ==== Sys2Proof/Machine/Flags.lean ====
section
/-! DEFINITION. The flags (rules R15 to R17): the comparison that CMP writes, and what the flags may be. -/

namespace Sys2Proof.Machine

/-- The three flags of CMP: Equal, LessThan, GreaterThan of unsigned bytes, first operand against second (rule R100;
the direction is decision D12, log 12). -/
def Flags.compare (a b : Byte) : Flags :=
  { e := a == b, l := decide (a.toNat < b.toNat), g := decide (b.toNat < a.toNat) }

/-- At most one flag is 1 (rule R17). -/
abbrev Flags.AtMostOne (f : Flags) : Prop :=
  ¬ (f.e = true ∧ f.l = true) ∧ ¬ (f.e = true ∧ f.g = true) ∧ ¬ (f.l = true ∧ f.g = true)

/-- Exactly one flag is 1 (rule R17: after the first CMP, and for ever after). -/
abbrev Flags.ExactlyOne (f : Flags) : Prop :=
  f.AtMostOne ∧ (f.e = true ∨ f.l = true ∨ f.g = true)

/-- An observer's packed byte `00000LGE` (decision D15): no rule depends on it. -/
def Flags.packed (f : Flags) : Byte :=
  BitVec.ofNat 8 (f.l.toNat * 4 + f.g.toNat * 2 + f.e.toNat)

end Sys2Proof.Machine
end

