-- ==== Sys2Proof/Machine/Control.lean ====
section
/-! DEFINITION. Compare and control transfer: CMP, JMP, JEQ, JNE, CALL, RET, HLT (rules R100 to R109). -/

namespace Sys2Proof.Machine

/-- CMP Ra,Rb: all three flags are written (R100). -/
def execCmp (o1 o2 : Byte) (s : State) : Host.Outcome State Fault Refusal :=
  conclude s Opcode.cmp do
    let ra ← regIndex o1
    let rb ← regIndex o2
    .ok ((s.setFlags (Flags.compare (s.regs.get ra) (s.regs.get rb))).advance 2)

/-- JMP Ra: `pc <- zext_9(x[ra])` (R101). -/
def execJmp (o1 : Byte) (s : State) : Host.Outcome State Fault Refusal :=
  conclude s Opcode.jmp do
    let ra ← regIndex o1
    .ok (s.redirect (zext9 (s.regs.get ra)))

/-- The shape JEQ and JNE share (R102): the register index is checked whether or not the branch is taken. -/
def branchIf (taken : Bool) (op : Byte) (o1 : Byte) (s : State) : Host.Outcome State Fault Refusal :=
  conclude s op do
    let ra ← regIndex o1
    .ok (if taken then s.redirect (zext9 (s.regs.get ra)) else s.advance 1)

/-- JEQ Ra: taken when `FL.E = 1` (R103). -/
def execJeq (o1 : Byte) (s : State) : Host.Outcome State Fault Refusal :=
  branchIf s.flags.e Opcode.jeq o1 s

/-- JNE Ra: taken when `FL.E = 0` (R104). -/
def execJne (o1 : Byte) (s : State) : Host.Outcome State Fault Refusal :=
  branchIf (!s.flags.e) Opcode.jne o1 s

/-- CALL Ra: push `pc + 2` on the CallStack and jump (R105). With a finite `CALLSTACK_DEPTH` a full CallStack raises
StackOverflow (decision D7, log 7). -/
def execCall (o1 : Byte) (s : State) : Host.Outcome State Fault Refusal :=
  conclude s Opcode.call do
    let ra ← regIndex o1
    let _ ← require (!s.callStackFull) .stackOverflow
    .ok ((s.pushCall (s.pc + 2)).redirect (zext9 (s.regs.get ra)))

/-- RET: `pc <- CS.pop()`, or CallStackUnderflow (R106). -/
def execRet (s : State) : Host.Outcome State Fault Refusal :=
  conclude s Opcode.ret <|
    match s.cs with
    | [] => .error .callStackUnderflow
    | top :: below => .ok ((s.setCalls below).redirect top)

/-- HLT: `status <- HALTED`, and nothing else changes, `pc` included (R107). -/
def execHlt (s : State) : Host.Outcome State Fault Refusal :=
  .next s.halt

end Sys2Proof.Machine
end

