-- ==== Sys2Proof/Machine/DataMove.lean ====
section
/-! DEFINITION. Data movement and output: LDI, ST, PRN (rules R90 to R93). -/

namespace Sys2Proof.Machine

/-- LDI Ra,imm: `x[ra] <- o2`, the byte as it stands (R90). -/
def execLdi (o1 o2 : Byte) (s : State) : Host.Outcome State Fault Refusal :=
  conclude s Opcode.ldi do
    let ra ← regIndex o1
    .ok ((s.setReg ra o2).advance 2)

/-- ST Ra,Rb: `M[x[ra]] <- x[rb]`; no register changes (R91). -/
def execSt (o1 o2 : Byte) (s : State) : Host.Outcome State Fault Refusal :=
  conclude s Opcode.st do
    let ra ← regIndex o1
    let rb ← regIndex o2
    let m ← memWrite s.mem (s.regs.get ra).toNat (s.regs.get rb)
    .ok ((s.setMem m).advance 2)

/-- PRN Ra: `emit(x[ra])` (R92). -/
def execPrn (o1 : Byte) (s : State) : Host.Outcome State Fault Refusal :=
  conclude s Opcode.prn do
    let ra ← regIndex o1
    .ok ((s.emit (s.regs.get ra)).advance 1)

end Sys2Proof.Machine
end

