-- ==== Sys2Proof/Machine/Stack.lean ====
section
/-! DEFINITION. The data stack: PUSH and POP (rules R95 to R99). An empty-descending stack: PUSH writes and then moves SP
down, POP moves SP up and then reads (conflict C2). -/

namespace Sys2Proof.Machine

/-- PUSH Ra (R95). The overflow test is on integers and precedes every write; the pushed value is read before SP
moves, so PUSH R7 stores the old SP. -/
def execPush (o1 : Byte) (s : State) : Host.Outcome State Fault Refusal :=
  conclude s Opcode.push do
    let ra ← regIndex o1
    let _ ← require (decide ((s.cfg.stackFloor.toNat : Int) ≤ (s.sp.toNat : Int) - 1)) .stackOverflow
    let m ← memWrite s.mem s.sp.toNat (s.regs.get ra)
    .ok (((s.setMem m).setReg spIndex (s.sp - 1)).advance 1)

/-- POP Ra (R96). SP is written first and the destination after it, so POP R7 leaves the loaded byte in R7. -/
def execPop (o1 : Byte) (s : State) : Host.Outcome State Fault Refusal :=
  conclude s Opcode.pop do
    let ra ← regIndex o1
    let _ ← require (decide ((s.sp.toNat : Int) + 1 ≤ (s.cfg.spInit.toNat : Int))) .stackUnderflow
    let v ← memRead s.mem ((s.sp.toNat : Int) + 1)
    .ok (((s.setReg spIndex (s.sp + 1)).setReg ra v).advance 1)

end Sys2Proof.Machine
end

