-- ==== Sys2Proof/Machine/Dispatch.lean ====
section
/-! DEFINITION. One arm per instruction: step 5 of the cycle of rule R62, with the PC advance of step 6 inside each meaning. -/

namespace Sys2Proof.Machine

def exec (i : Instr) (s : State) : Host.Outcome State Fault Refusal :=
  match i with
  | .hlt => Sys2Proof.Machine.execHlt s
  | .ret => Sys2Proof.Machine.execRet s
  | .push o1 => Sys2Proof.Machine.execPush o1 s
  | .pop o1 => Sys2Proof.Machine.execPop o1 s
  | .prn o1 => Sys2Proof.Machine.execPrn o1 s
  | .call o1 => Sys2Proof.Machine.execCall o1 s
  | .jmp o1 => Sys2Proof.Machine.execJmp o1 s
  | .jeq o1 => Sys2Proof.Machine.execJeq o1 s
  | .jne o1 => Sys2Proof.Machine.execJne o1 s
  | .not o1 => Sys2Proof.Machine.execNot o1 s
  | .ldi o1 o2 => Sys2Proof.Machine.execLdi o1 o2 s
  | .st o1 o2 => Sys2Proof.Machine.execSt o1 o2 s
  | .add o1 o2 => Sys2Proof.Machine.execAdd o1 o2 s
  | .mul o1 o2 => Sys2Proof.Machine.execMul o1 o2 s
  | .mod o1 o2 => Sys2Proof.Machine.execMod o1 o2 s
  | .cmp o1 o2 => Sys2Proof.Machine.execCmp o1 o2 s
  | .and o1 o2 => Sys2Proof.Machine.execAnd o1 o2 s
  | .or o1 o2 => Sys2Proof.Machine.execOr o1 o2 s
  | .xor o1 o2 => Sys2Proof.Machine.execXor o1 o2 s
  | .shl o1 o2 => Sys2Proof.Machine.execShl o1 o2 s
  | .shr o1 o2 => Sys2Proof.Machine.execShr o1 o2 s

end Sys2Proof.Machine
end

