-- ==== Sys2Proof/Machine/Step.lean ====
section
/-! DEFINITION. One step of the machine: one pass of the cycle of rule R62. -/

namespace Sys2Proof.Machine

/-- While `status = RUNNING`: fetch and decode (steps 1 to 4), then execute (steps 5 and 6); an error of the fetch is
the fatal stop (step 7). HLT is a row of the opcode table with no operand, so testing for it before the decode
(step 2) makes no difference (conflict C6). In a terminal state no cycle executes and nothing changes (rule R68;
log 17). -/
def step (s : State) : Host.Outcome State Fault Refusal :=
  match s.status with
  | .halted => .next s
  | .faulted => .next s
  | .running =>
    match fetch s with
    | .ok i => exec i s
    | .error (k, op) => .next (s.fatalStop k op)

/-- `s` with a table word stored at `pc`, where the next fetch reads (log 24). -/
def State.withFetchWord (s : State) (nbits w : Nat) : State :=
  s.setMem (Memory.load s.mem s.pc.toNat (tableBytes nbits w))

end Sys2Proof.Machine
end

