-- ==== Sys2Proof/Machine/External.lean ====
section
/-! DEFINITION. What the host can do to the core and what the core hands back (rules R132 to R139): the launch, the read-only
snapshot and the end-of-run report. The output is `State.out`. -/

namespace Sys2Proof.Machine

/-- Reset and preload (rules R130, R132, R134): the launch state for a configuration, an `IMAGE` and a `MEM_REST`. An
image of more than 256 bytes has no launch state (rule R135), nor has a configuration outside rule R5. -/
def State.launch (c : Config) (image : List Byte) (memRest : Nat → Byte) : Host.Outcome State Fault Refusal :=
  if c.wf then
    if image.length ≤ 256 then
      .next ((State.resetWith c).setMem (Memory.tabulate (fun a => image.getD a (memRest a)) 256 0))
    else .refused .imageTooLong
  else .refused .badConfiguration

/-- The contents of the snapshot of rule R139. A cell whose address exceeds 255 is absent (decision D14). -/
structure Snapshot where
  pc : CodeAddr
  opcode : Option Byte
  next1 : Option Byte
  next2 : Option Byte
  regs : Regs
  flags : Flags
  deriving DecidableEq, Repr

/-- The cell at `a`, absent above 255. -/
def Memory.cell? (m : Memory) (a : Nat) : Option Byte :=
  if a ≤ 255 then some (Memory.read m a) else none

/-- The snapshot of rule R139. Taking it changes nothing. -/
def State.snapshot (s : State) : Snapshot :=
  { pc := s.pc
    opcode := Memory.cell? s.mem s.pc.toNat
    next1 := Memory.cell? s.mem (s.pc.toNat + 1)
    next2 := Memory.cell? s.mem (s.pc.toNat + 2)
    regs := s.regs
    flags := s.flags }

/-- What the caller sees at the end of a run (rule R138). -/
structure EndReport where
  status : RunStatus
  fault : Option FaultRecord
  /-- The numeric code of the recorded kind (rule R110). -/
  code : Option Nat
  deriving DecidableEq, Repr

/-- The report of rule R138: nothing while the core runs. -/
def State.endReport (s : State) : Option EndReport :=
  match s.status with
  | .running => none
  | .halted => some { status := .halted, fault := s.fault, code := s.fault.map fun r => r.kind.code }
  | .faulted => some { status := .faulted, fault := s.fault, code := s.fault.map fun r => r.kind.code }

end Sys2Proof.Machine
end

