-- ==== Sys2Proof/WellFormed.lean ====
section
/-! DEFINITION. When an instruction is well formed: every operand byte that names a register is 0..7 (rules R47, R53).
An ill-formed instruction still decodes and still executes: its handler raises AddressOutOfRange (rule R11). -/

namespace Sys2Proof

/-- The operand bytes that name a register, first operand first (the `o1` and `o2` columns of rule R48). -/
def Instr.registerOperands : Instr → List Byte
  | .hlt => []
  | .ret => []
  | .push o1 => [o1]
  | .pop o1 => [o1]
  | .prn o1 => [o1]
  | .call o1 => [o1]
  | .jmp o1 => [o1]
  | .jeq o1 => [o1]
  | .jne o1 => [o1]
  | .not o1 => [o1]
  | .ldi o1 _ => [o1]
  | .st o1 o2 => [o1, o2]
  | .add o1 o2 => [o1, o2]
  | .mul o1 o2 => [o1, o2]
  | .mod o1 o2 => [o1, o2]
  | .cmp o1 o2 => [o1, o2]
  | .and o1 o2 => [o1, o2]
  | .or o1 o2 => [o1, o2]
  | .xor o1 o2 => [o1, o2]
  | .shl o1 o2 => [o1, o2]
  | .shr o1 o2 => [o1, o2]

/-- Every register-index operand byte is 0..7 (rule R47). -/
abbrev Instr.WellFormed (i : Instr) : Prop :=
  ∀ o ∈ i.registerOperands, o.toNat < 8

end Sys2Proof
end

