-- ==== Sys2Proof/Safety.lean ====
section
/-! DEFINITION. What claims are stated in: the invariant of rule R26, the safe run, which errors an instruction can raise, where it
redirects to, the count of calls and returns, and states that differ only in the flags no instruction reads. -/

namespace Sys2Proof.Machine

/-- The invariants of rule R26 that every reachable state satisfies, and the canonical form of memory. That stored
values are in 0..255 is their type. -/
structure Inv (s : State) : Prop where
  /-- `0 <= pc <= 256` (R13). -/
  pc_le : s.pc.toNat ≤ 256
  /-- The memory is in its canonical form. -/
  mem_wf : Memory.wf s.mem
  /-- At most one flag is true (R17). -/
  flags_atMostOne : s.flags.AtMostOne
  /-- Every CallStack entry is in 2..256 (R18). -/
  cs_range : ∀ a ∈ s.cs, 2 ≤ a.toNat ∧ a.toNat ≤ 256
  /-- A finite capacity is not exceeded (R26). -/
  cs_depth : ∀ d ∈ s.cfg.callStackDepth, s.cs.length ≤ d
  /-- The fault record is present exactly when the status is FAULTED (R20). -/
  fault_iff : s.fault.isSome = true ↔ s.status = .faulted
  /-- The configuration meets the constraints of rule R5. -/
  cfg_wf : s.cfg.wf

/-- A run of `k` steps from `s` is safe: it ends in a state that is not FAULTED. -/
def SafeRun (s : State) (k : Nat) : Prop :=
  ∃ t, core.run k s = .next t ∧ t.status ≠ .faulted

/-- The error kinds an instruction can raise (the table of rule R111). -/
def errorKinds : Instr → List ErrorKind
  | .hlt => []
  | .ret => [.callStackUnderflow]
  | .push _ => [.addressOutOfRange, .stackOverflow]
  | .pop _ => [.addressOutOfRange, .stackUnderflow]
  | .prn _ => [.addressOutOfRange]
  | .call _ => [.addressOutOfRange, .stackOverflow]
  | .jmp _ => [.addressOutOfRange]
  | .jeq _ => [.addressOutOfRange]
  | .jne _ => [.addressOutOfRange]
  | .not _ => [.addressOutOfRange]
  | .ldi _ _ => [.addressOutOfRange]
  | .st _ _ => [.addressOutOfRange]
  | .add _ _ => [.addressOutOfRange]
  | .mul _ _ => [.addressOutOfRange]
  | .mod _ _ => [.addressOutOfRange, .divideByZero]
  | .cmp _ _ => [.addressOutOfRange]
  | .and _ _ => [.addressOutOfRange]
  | .or _ _ => [.addressOutOfRange]
  | .xor _ _ => [.addressOutOfRange]
  | .shl _ _ => [.addressOutOfRange]
  | .shr _ _ => [.addressOutOfRange]

/-- The value of the register an operand byte names, as a 9-bit jump target (rule R109). -/
def jumpTarget (o1 : Byte) (s : State) : Option CodeAddr :=
  match regIndex o1 with
  | .ok ra => some (BitVec.ofNat 9 (s.regs.get ra).toNat)
  | .error _ => none

/-- Where an instruction redirects to in a state, `none` where it does not redirect (rules R14, R65): JMP and CALL
always, JEQ when E is 1, JNE when E is 0, RET to the top of the CallStack. -/
def redirectTarget (i : Instr) (s : State) : Option CodeAddr :=
  match i with
  | .jmp o1 => jumpTarget o1 s
  | .call o1 => jumpTarget o1 s
  | .jeq o1 => if s.flags.e then jumpTarget o1 s else none
  | .jne o1 => if s.flags.e then none else jumpTarget o1 s
  | .ret => s.cs.head?
  | .hlt | .push _ | .pop _ | .prn _ | .not _ | .ldi _ _ | .st _ _ | .add _ _ | .mul _ _ | .mod _ _ | .cmp _ _
  | .and _ _ | .or _ _ | .xor _ _ | .shl _ _ | .shr _ _ => none

/-- The change of the CallStack's depth in the step from `s` to `t`: a CALL that completed counts 1, a RET that
completed counts -1 (rule R18). -/
def callDelta (s t : State) : Int :=
  if s.status = .running ∧ t.status = .running then
    match fetch s with
    | .ok (.call _) => 1
    | .ok .ret => -1
    | _ => 0
  else 0

/-- The net (Call - Return) count of `k` steps from `s` (rule R18). -/
def netCalls : Nat → State → Int
  | 0, _ => 0
  | k + 1, s =>
    match step s with
    | .next t => callDelta s t + netCalls k t
    | .fault _ => 0
    | .refused _ => 0

/-- The state with its LessThan and GreaterThan flags replaced: the flags no instruction reads (rule R16). -/
def State.withLessGreater (s : State) (l g : Bool) : State :=
  { s with flags := { s.flags with l := l, g := g } }

end Sys2Proof.Machine
end

