-- ==== Sys2Proof/Certificates/Slice0/Obligations.lean ====
section
/-! DEFINITION. The statements for the provers. `regByte r` is the operand byte that names register `r` (rule R54), so a statement
over all `r : Fin 8` covers every legal register operand, R7 included; every ILLEGAL register operand of every instruction is the
subject of IllegalRegisterOperandStops. An opcode byte that stands as a number is the spec's decision D1 (log 1, PRESUMED). -/

open Sys2Proof Sys2Proof.Machine

/-! ## Encoding -/

/-- Decoding an encoded instruction gives it back, whatever bytes follow: every instruction, every operand byte at
every value, the illegal register numbers included (rules R45, R51; the opcode bytes are the spec's decision D1,
log 1). -/
def Obligations.DecodeOfEncodeIsIdentity : Prop :=
  ∀ (i : Instr) (rest : List Byte), decode (encode i ++ rest) = .ok (i, rest)

/-- What the decoder reads as an instruction is exactly that instruction's encoding: every word has one meaning, and no
reserved byte is read as a neighbour. -/
def Obligations.EncodeOfDecodeIsIdentity : Prop :=
  ∀ (bs rest : List Byte) (i : Instr), decode bs = .ok (i, rest) → bs = encode i ++ rest

/-- The 21 opcode bytes of rule R48, each with its operand count; every other byte is unknown (rule R52), 235 of 256.
The byte values are the spec's decision D1 (log 1). -/
def Obligations.OpcodeBytesAndOperandCounts : Prop :=
  (∀ op : Byte, (decodeOpcode op).map RowShape.operandCount =
    if op ∈ [0x01, 0x11] then some 0
    else if op ∈ [0x45, 0x46, 0x47, 0x50, 0x54, 0x55, 0x56, 0x69] then some 1
    else if op ∈ [0x82, 0x84, 0xA0, 0xA2, 0xA4, 0xA7, 0xA8, 0xAA, 0xAB, 0xAC, 0xAD] then some 2
    else none) ∧
  ((List.range 256).filter fun n => (decodeOpcode (BitVec.ofNat 8 n)).isNone).length = 235

/-- One word of every family, written out from the encoding table of rule R48 (its opcode bytes: decision D1, log 1),
decodes to its instruction. -/
def Obligations.WordsOfEachFamilyDecode : Prop :=
  decodeTableWord 24 0x0100A0 = some (.add 0 1) ∧
  decodeTableWord 16 0x0069 = some (.not 0) ∧
  decodeTableWord 24 0x080082 = some (.ldi 0 8) ∧
  decodeTableWord 24 0x010084 = some (.st 0 1) ∧
  decodeTableWord 16 0x0047 = some (.prn 0) ∧
  decodeTableWord 16 0x0345 = some (.push 3) ∧
  decodeTableWord 16 0x0146 = some (.pop 1) ∧
  decodeTableWord 24 0x0100A7 = some (.cmp 0 1) ∧
  decodeTableWord 16 0x0255 = some (.jeq 2) ∧
  decodeTableWord 16 0x0150 = some (.call 1) ∧
  decodeTableWord 8 0x11 = some .ret ∧
  decodeTableWord 8 0x01 = some .hlt

/-! ## The cycle -/

/-- A step of a running core whose memory holds the encoding of an instruction at `pc` is `exec` of that instruction
(rule R62). The meaning itself makes the PC advance of step 6; `step` adds nothing around it. -/
def Obligations.StepRunsDecodedInstruction : Prop :=
  ∀ (i : Instr) (s : State), s.status = .running →
    s.pc.toNat + (encode i).length ≤ 256 →
    (∀ k b, (encode i)[k]? = some b → Memory.read s.mem (s.pc.toNat + k) = b) →
    step s = exec i s

/-- An unknown opcode stops the run at once: UnknownOpcode with its pc and the byte, whatever bytes follow it, and
nothing else changes (rule R61). -/
def Obligations.UnknownOpcodeStops : Prop :=
  ∀ s : State, s.status = .running → s.pc.toNat ≤ 255 →
    decodeOpcode (Memory.read s.mem s.pc.toNat) = none →
    step s = .next { s with
      status := .faulted
      fault := some { kind := .unknownOpcode, pc := s.pc, opcode := some (Memory.read s.mem s.pc.toNat) } }

/-- A fetch beyond memory stops the run: AddressOutOfRange with no opcode recorded, and no wrap to address 0 (rule
R63, decision D10; log 10). -/
def Obligations.FetchBeyondMemoryStops : Prop :=
  ∀ s : State, s.status = .running → 255 < s.pc.toNat →
    step s = .next { s with
      status := .faulted
      fault := some { kind := .addressOutOfRange, pc := s.pc, opcode := none } }

/-- An operand byte beyond memory stops the run before the handler: AddressOutOfRange with the opcode recorded, nothing
else changed, and no operand taken from address 0 (rule R64, decision D10; log 10). -/
def Obligations.OperandBeyondMemoryStops : Prop :=
  ∀ (s : State) (row : RowShape), s.status = .running → s.pc.toNat ≤ 255 →
    decodeOpcode (Memory.read s.mem s.pc.toNat) = some row →
    255 < s.pc.toNat + row.operandCount →
    step s = .next { s with
      status := .faulted
      fault := some { kind := .addressOutOfRange, pc := s.pc, opcode := some (Memory.read s.mem s.pc.toNat) } }

/-- Every instruction, in every state, has exactly one outcome and it is a next state; so has every step (rule R44; 93:
"every state with status = RUNNING has exactly one next state"). For a terminal state the next state is the model's
choice (log 17). -/
def Obligations.EveryStepAnswersANextState : Prop :=
  (∀ (i : Instr) (s : State), ∃ t, exec i s = .next t) ∧ ∀ s : State, ∃ t, step s = .next t

/-- HALTED and FAULTED are absorbing: any number of steps leaves a terminal state as it is (rule R68, decision D18;
that the model answers the same state is log 17). -/
def Obligations.TerminalStatesAreAbsorbing : Prop :=
  ∀ (s : State) (k : Nat), s.status ≠ .running → core.run k s = .next s

/-- A running core becomes HALTED exactly when the byte at `pc` is HLT's, and FAULTED exactly when the step records an
error (rules R19, R67, R107). HLT's byte is decision D1 (log 1). -/
def Obligations.RunningEndsOnlyByHltOrError : Prop :=
  ∀ s t : State, s.status = .running → s.fault = none → step s = .next t →
    (t.status = .halted ↔ s.pc.toNat ≤ 255 ∧ Memory.read s.mem s.pc.toNat = 0x01) ∧
    (t.status = .faulted ↔ t.fault.isSome = true)

/-- PC advance (rule R65): an instruction that completes without redirecting moves `pc` past its own bytes, with no
wrap; a redirecting one sets it to its target as it is; HLT and a raise leave it. -/
def Obligations.PcAdvancesOrRedirects : Prop :=
  ∀ (s t : State) (i : Instr), s.status = .running → fetch s = .ok i → step s = .next t →
    (t.status = .running → redirectTarget i s = none →
      t.pc.toNat = s.pc.toNat + (encode i).length ∧ t.pc.toNat ≤ 256) ∧
    (t.status = .running → ∀ a, redirectTarget i s = some a → t.pc = a) ∧
    (t.status ≠ .running → t.pc = s.pc)

/-- The length of the advance is static: 1, 2 or 3 bytes by the opcode alone (rules R45, R50). -/
def Obligations.LengthIsStatic : Prop :=
  ∀ i j : Instr, i.opcode = j.opcode → (encode i).length = (encode j).length ∧ 1 ≤ (encode i).length ∧
    (encode i).length ≤ 3

/-! ## Errors -/

/-- The fatal stop (rule R112): when a step of a running core raises an error, only `status` and `fault` differ from
the state before it; the record holds a kind, the pc, and the opcode at pc (absent when pc is beyond memory: decision
D10, log 10). That any number of further steps leaves the state as it is, is the model's own form of "no further cycle
executes" (decision D18, log 17). -/
def Obligations.FatalStopIsPrecise : Prop :=
  ∀ s t : State, s.status = .running → step s = .next t → t.status = .faulted →
    (∃ k, t = { s with
      status := .faulted
      fault := some { kind := k, pc := s.pc,
                      opcode := if s.pc.toNat ≤ 255 then some (Memory.read s.mem s.pc.toNat) else none } }) ∧
    ∀ n, core.run n t = .next t

/-- A register operand byte of 8..255 is never masked: `RegIndex` fails on it, every instruction that names a register
by it stops with AddressOutOfRange and changes nothing else, and on 0..7 it is the register (rule R11). Over all
instructions this rests on choices of the spec: which operand bytes name a register is decision D2 for the ALU
instructions and D3 for NOT (log 2, 3), that the index check wins over DivideByZero and the stack tests is D9 (log 9),
that an untaken JEQ or JNE makes it is D13 (log 13), and that the byte reaches the handler is log 23. -/
def Obligations.IllegalRegisterOperandStops : Prop :=
  (∀ b : Byte, (8 ≤ b.toNat → regIndex b = .error .addressOutOfRange) ∧
    ∀ h : b.toNat < 8, regIndex b = .ok ⟨b.toNat, h⟩) ∧
  ∀ (i : Instr) (s : State), ¬ i.WellFormed →
    exec i s = .next { s with
      status := .faulted
      fault := some { kind := .addressOutOfRange, pc := s.pc, opcode := some i.opcode } }

/-- Which instruction raises what (the table of rule R111): the recorded kind is one the table gives the instruction,
and AddressOutOfRange comes from an illegal register operand only (that index checks come first is decision D9,
log 9). -/
def Obligations.ErrorKindsOfEachInstruction : Prop :=
  ∀ (i : Instr) (s t : State), s.status = .running → exec i s = .next t → t.status = .faulted →
    ∃ r, t.fault = some r ∧ r.kind ∈ errorKinds i ∧ (r.kind = .addressOutOfRange ↔ ¬ i.WellFormed)

/-- The ALU answers UnsupportedALUOperation to a select outside its nine (rule R76), and no step records that kind
(decision D20, log 19). -/
def Obligations.UnsupportedAluOperationIsUnreachable : Prop :=
  (∀ a b : Byte, alu none a b = .error .unsupportedALUOperation) ∧
  ∀ s t : State, (∀ r ∈ s.fault, r.kind ≠ .unsupportedALUOperation) → step s = .next t →
    ∀ r ∈ t.fault, r.kind ≠ .unsupportedALUOperation

/-- The operation-specific errors, with legal register operands: MOD by zero, PUSH at the floor, POP at the ceiling, RET
on an empty CallStack, CALL on a full one (rules R86, R95, R96, R105, R106, R110; the exact stack tests are decisions
D6 and D7, log 6, 7). -/
def Obligations.OperationErrorsStop : Prop :=
  ∀ (ra rb : Fin 8) (s : State),
    (s.regs.get rb = 0 →
      exec (.mod (regByte ra) (regByte rb)) s = .next (s.fatalStop .divideByZero (some 0xA4))) ∧
    ((s.regs.get 7).toNat ≤ s.cfg.stackFloor.toNat →
      exec (.push (regByte ra)) s = .next (s.fatalStop .stackOverflow (some 0x45))) ∧
    (s.cfg.spInit.toNat ≤ (s.regs.get 7).toNat →
      exec (.pop (regByte ra)) s = .next (s.fatalStop .stackUnderflow (some 0x46))) ∧
    (s.cfg.callStackDepth = some s.cs.length →
      exec (.call (regByte ra)) s = .next (s.fatalStop .stackOverflow (some 0x50))) ∧
    (s.cs = [] → exec .ret s = .next (s.fatalStop .callStackUnderflow (some 0x11)))

/-! ## Memory -/

/-- `MemRead` (rule R31): inside 0..255 the cell, elsewhere AddressOutOfRange. -/
def Obligations.MemReadIsBounded : Prop :=
  ∀ (m : Memory) (addr : Int),
    (0 ≤ addr ∧ addr ≤ 255 → memRead m addr = .ok (Memory.read m addr.toNat)) ∧
    (addr < 0 ∨ 255 < addr → memRead m addr = .error .addressOutOfRange)

/-- `MemWrite` (rule R32): inside 0..255 it sets that cell and no other; elsewhere AddressOutOfRange. -/
def Obligations.MemWriteSetsOneCell : Prop :=
  ∀ (m : Memory) (addr : Int) (v : Byte),
    (0 ≤ addr ∧ addr ≤ 255 → ∃ m', memWrite m addr v = .ok m' ∧
      ∀ a : Nat, Memory.read m' a = if (a : Int) = addr then v else Memory.read m a) ∧
    (addr < 0 ∨ 255 < addr → memWrite m addr v = .error .addressOutOfRange)

/-- A canonical memory is determined by what its cells read as, so equal contents are equal states. The canonical form
is the model's own (log 11). -/
def Obligations.CanonicalMemoriesWithEqualCellsAreEqual : Prop :=
  ∀ m m' : Memory, Memory.wf m → Memory.wf m' → (∀ a, a < 256 → Memory.read m a = Memory.read m' a) → m = m'

/-! ## Results: the ALU instructions -/

/-- The ALU's table (rule R75), on every pair of bytes. -/
def Obligations.AluTable : Prop :=
  ∀ a b : Byte,
    alu (some .add) a b = .ok (BitVec.ofNat 8 ((a.toNat + b.toNat) % 256)) ∧
    alu (some .mul) a b = .ok (BitVec.ofNat 8 ((a.toNat * b.toNat) % 256)) ∧
    (∃ r, alu (some .and) a b = .ok r ∧ ∀ k, k < 8 → r.getLsbD k = (a.getLsbD k && b.getLsbD k)) ∧
    (∃ r, alu (some .or) a b = .ok r ∧ ∀ k, k < 8 → r.getLsbD k = (a.getLsbD k || b.getLsbD k)) ∧
    (∃ r, alu (some .xor) a b = .ok r ∧ ∀ k, k < 8 → r.getLsbD k = (a.getLsbD k != b.getLsbD k)) ∧
    (∃ r, alu (some .not) a b = .ok r ∧ ∀ k, k < 8 → r.getLsbD k = !a.getLsbD k) ∧
    alu (some .shl) a b = .ok (BitVec.ofNat 8 ((a.toNat * 2 ^ (b.toNat % 8)) % 256)) ∧
    alu (some .shr) a b = .ok (BitVec.ofNat 8 (a.toNat / 2 ^ (b.toNat % 8))) ∧
    alu (some .mod) a b = if b.toNat = 0 then .error .divideByZero else .ok (BitVec.ofNat 8 (a.toNat % b.toNat))

/-- ADD and MUL: the result modulo 256 goes to the first register, `pc` moves by 3, nothing else changes (rules R78,
R79; the operand shape is decision D2, log 2). -/
def Obligations.AddMulResult : Prop :=
  ∀ (ra rb : Fin 8) (s : State),
    exec (.add (regByte ra) (regByte rb)) s = .next { s with
      regs := s.regs.set ra (BitVec.ofNat 8 (((s.regs.get ra).toNat + (s.regs.get rb).toNat) % 256))
      pc := s.pc + 3 } ∧
    exec (.mul (regByte ra) (regByte rb)) s = .next { s with
      regs := s.regs.set ra (BitVec.ofNat 8 (((s.regs.get ra).toNat * (s.regs.get rb).toNat) % 256))
      pc := s.pc + 3 }

/-- AND, OR, XOR, bit by bit (rules R80, R81, R82; operand shape: decision D2, log 2). -/
def Obligations.AndOrXorResult : Prop :=
  ∀ (ra rb : Fin 8) (s : State),
    (∃ r : Byte, exec (.and (regByte ra) (regByte rb)) s = .next { s with regs := s.regs.set ra r, pc := s.pc + 3 } ∧
      ∀ k, k < 8 → r.getLsbD k = ((s.regs.get ra).getLsbD k && (s.regs.get rb).getLsbD k)) ∧
    (∃ r : Byte, exec (.or (regByte ra) (regByte rb)) s = .next { s with regs := s.regs.set ra r, pc := s.pc + 3 } ∧
      ∀ k, k < 8 → r.getLsbD k = ((s.regs.get ra).getLsbD k || (s.regs.get rb).getLsbD k)) ∧
    (∃ r : Byte, exec (.xor (regByte ra) (regByte rb)) s = .next { s with regs := s.regs.set ra r, pc := s.pc + 3 } ∧
      ∀ k, k < 8 → r.getLsbD k = ((s.regs.get ra).getLsbD k != (s.regs.get rb).getLsbD k))

/-- SHL and SHR: the amount is `b mod 8`; SHL is `(a * 2^s) mod 256`, SHR is `a div 2^s`, with no complement (rules R84,
R85; operand shape: decision D2, log 2). -/
def Obligations.ShlShrResult : Prop :=
  ∀ (ra rb : Fin 8) (s : State),
    exec (.shl (regByte ra) (regByte rb)) s = .next { s with
      regs := s.regs.set ra
        (BitVec.ofNat 8 (((s.regs.get ra).toNat * 2 ^ ((s.regs.get rb).toNat % 8)) % 256))
      pc := s.pc + 3 } ∧
    exec (.shr (regByte ra) (regByte rb)) s = .next { s with
      regs := s.regs.set ra (BitVec.ofNat 8 ((s.regs.get ra).toNat / 2 ^ ((s.regs.get rb).toNat % 8)))
      pc := s.pc + 3 }

/-- MOD with a divisor that is not 0 (rule R86; operand shape: decision D2, log 2). -/
def Obligations.ModResult : Prop :=
  ∀ (ra rb : Fin 8) (s : State), (s.regs.get rb).toNat ≠ 0 →
    exec (.mod (regByte ra) (regByte rb)) s = .next { s with
      regs := s.regs.set ra (BitVec.ofNat 8 ((s.regs.get ra).toNat % (s.regs.get rb).toNat))
      pc := s.pc + 3 }

/-- NOT: `255 - x`, and `pc` moves by 2 (rule R83; the length is decision D3, log 3). -/
def Obligations.NotResult : Prop :=
  ∀ (ra : Fin 8) (s : State),
    exec (.not (regByte ra)) s = .next { s with
      regs := s.regs.set ra (BitVec.ofNat 8 (255 - (s.regs.get ra).toNat))
      pc := s.pc + 2 }

/-! ## Results: data movement, stack -/

/-- LDI (rule R90): its encoding, the register loaded with the immediate as it stands, `pc + 3`, nothing else; and an
illegal first operand stops it. The opcode byte is decision D1 (log 1). -/
def Obligations.LdiLoadsImmediate : Prop :=
  (∀ o1 o2 : Byte, encode (.ldi o1 o2) = [0x82, o1, o2]) ∧
  (∀ (ra : Fin 8) (imm : Byte) (s : State),
    exec (.ldi (regByte ra) imm) s = .next { s with regs := s.regs.set ra imm, pc := s.pc + 3 }) ∧
  ∀ (o1 imm : Byte) (s : State), 8 ≤ o1.toNat →
    exec (.ldi o1 imm) s = .next (s.fatalStop .addressOutOfRange (some 0x82))

/-- ST (rule R91): its encoding; the byte in the second register goes to the cell whose address the first register
holds, and to no other cell; no register changes; `pc + 3`; and an illegal operand stops it. The opcode byte is decision
D1 (log 1). -/
def Obligations.StStoresOneByte : Prop :=
  (∀ o1 o2 : Byte, encode (.st o1 o2) = [0x84, o1, o2]) ∧
  (∀ (ra rb : Fin 8) (s : State), ∃ m : Memory,
    exec (.st (regByte ra) (regByte rb)) s = .next { s with mem := m, pc := s.pc + 3 } ∧
    ∀ a : Nat, Memory.read m a = if a = (s.regs.get ra).toNat then s.regs.get rb else Memory.read s.mem a) ∧
  ∀ (o1 o2 : Byte) (s : State), 8 ≤ o1.toNat ∨ 8 ≤ o2.toNat →
    exec (.st o1 o2) s = .next (s.fatalStop .addressOutOfRange (some 0x84))

/-- PRN appends the register's value to OUT (rule R92; the sink is always ready: decision D16, log 15). -/
def Obligations.PrnEmitsRegister : Prop :=
  ∀ (ra : Fin 8) (s : State),
    exec (.prn (regByte ra)) s = .next { s with out := s.out ++ [s.regs.get ra], pc := s.pc + 2 }

/-- PUSH above the floor: `M[SP] <- x[ra]` with both read before the writes, then `SP - 1` (rule R95; the exact test is
decision D6, log 6). -/
def Obligations.PushStoresThenDecrements : Prop :=
  ∀ (ra : Fin 8) (s : State), s.cfg.stackFloor.toNat < (s.regs.get 7).toNat →
    ∃ m : Memory,
      exec (.push (regByte ra)) s = .next { s with
        mem := m
        regs := s.regs.set 7 (BitVec.ofNat 8 ((s.regs.get 7).toNat - 1))
        pc := s.pc + 2 } ∧
      ∀ a : Nat, Memory.read m a = if a = (s.regs.get 7).toNat then s.regs.get ra else Memory.read s.mem a

/-- POP below the ceiling: SP is incremented, then the register gets `M[SP]`; for POP R7 the loaded byte wins (rule R96;
the exact test is decisions D5 and D6, log 5, 6). -/
def Obligations.PopIncrementsThenLoads : Prop :=
  ∀ (ra : Fin 8) (s : State), (s.regs.get 7).toNat < s.cfg.spInit.toNat →
    exec (.pop (regByte ra)) s = .next { s with
      regs := (s.regs.set 7 (BitVec.ofNat 8 ((s.regs.get 7).toNat + 1))).set ra
        (Memory.read s.mem ((s.regs.get 7).toNat + 1))
      pc := s.pc + 2 }

/-- The round trip (rule R98): with `STACK_FLOOR < SP <= SP_INIT`, PUSH Ra; POP Rb succeeds, copies Ra into Rb and
leaves every other register (for Ra = Rb every register) as it was, changes memory only in cell SP, and advances `pc`
by 4; and two pushed values pop in the reverse order. -/
def Obligations.PushPopRoundTrip : Prop :=
  (∀ (ra rb : Fin 8) (s : State), s.cfg.stackFloor.toNat < (s.regs.get 7).toNat →
    (s.regs.get 7).toNat ≤ s.cfg.spInit.toNat →
    ∃ u t, exec (.push (regByte ra)) s = .next u ∧ exec (.pop (regByte rb)) u = .next t ∧
      t.status = s.status ∧ t.regs = s.regs.set rb (s.regs.get ra) ∧ (ra = rb → t.regs = s.regs) ∧
      t.pc = s.pc + 4 ∧
      ∀ a : Nat, Memory.read t.mem a = if a = (s.regs.get 7).toNat then s.regs.get ra else Memory.read s.mem a) ∧
  ∀ (ra rb rc rd : Fin 8) (s : State), rb ≠ 7 → rc ≠ 7 → s.cfg.stackFloor.toNat + 1 < (s.regs.get 7).toNat →
    (s.regs.get 7).toNat ≤ s.cfg.spInit.toNat →
    ∃ u v w t, exec (.push (regByte ra)) s = .next u ∧ exec (.push (regByte rb)) u = .next v ∧
      exec (.pop (regByte rc)) v = .next w ∧ exec (.pop (regByte rd)) w = .next t ∧
      w.regs.get rc = s.regs.get rb ∧ t.regs.get rd = s.regs.get ra

/-- A well-behaved data stack stays in `STACK_FLOOR .. SP_INIT`: PUSH and POP of a register other than R7 keep SP there
(rule R97). -/
def Obligations.DataStackStaysInRange : Prop :=
  ∀ (o1 : Byte) (i : Instr) (s t : State), i = .push o1 ∨ (i = .pop o1 ∧ o1 ≠ regByte 7) →
    s.cfg.stackFloor.toNat ≤ (s.regs.get 7).toNat → (s.regs.get 7).toNat ≤ s.cfg.spInit.toNat →
    exec i s = .next t →
    s.cfg.stackFloor.toNat ≤ (t.regs.get 7).toNat ∧ (t.regs.get 7).toNat ≤ s.cfg.spInit.toNat

/-! ## Results: compare and control transfer -/

/-- CMP writes all three flags from the unsigned comparison, exactly one of them true (rule R100; the direction of L and
G is decision D12, log 12). -/
def Obligations.CmpSetsFlags : Prop :=
  ∀ (ra rb : Fin 8) (s : State),
    exec (.cmp (regByte ra) (regByte rb)) s = .next { s with
      flags := { e := decide ((s.regs.get ra).toNat = (s.regs.get rb).toNat)
                 l := decide ((s.regs.get ra).toNat < (s.regs.get rb).toNat)
                 g := decide ((s.regs.get rb).toNat < (s.regs.get ra).toNat) }
      pc := s.pc + 3 }

/-- JMP (rule R101): its encoding, `pc` becomes the register's value, nothing else changes; an illegal operand stops
it. The opcode byte is decision D1 (log 1). -/
def Obligations.JmpRedirects : Prop :=
  (∀ o1 : Byte, encode (.jmp o1) = [0x54, o1]) ∧
  (∀ (ra : Fin 8) (s : State),
    exec (.jmp (regByte ra)) s = .next { s with pc := BitVec.ofNat 9 (s.regs.get ra).toNat }) ∧
  ∀ (o1 : Byte) (s : State), 8 ≤ o1.toNat →
    exec (.jmp o1) s = .next (s.fatalStop .addressOutOfRange (some 0x54))

/-- JEQ branches exactly when E is 1, JNE exactly when E is 0; otherwise `pc + 2`; nothing else changes; an illegal
operand stops either of them, taken or not (rules R102 to R104; the last clause is decision D13, log 13). -/
def Obligations.JeqJneBranchOnEqual : Prop :=
  (∀ (ra : Fin 8) (s : State),
    exec (.jeq (regByte ra)) s = .next { s with
      pc := if s.flags.e then BitVec.ofNat 9 (s.regs.get ra).toNat else s.pc + 2 } ∧
    exec (.jne (regByte ra)) s = .next { s with
      pc := if s.flags.e then s.pc + 2 else BitVec.ofNat 9 (s.regs.get ra).toNat }) ∧
  ∀ (o1 : Byte) (s : State), 8 ≤ o1.toNat →
    exec (.jeq o1) s = .next (s.fatalStop .addressOutOfRange (some 0x55)) ∧
    exec (.jne o1) s = .next (s.fatalStop .addressOutOfRange (some 0x56))

/-- CALL with room on the CallStack, and always when it is unbounded: `pc + 2` is pushed and `pc` becomes the register's
value; memory and R7 are untouched (rule R105; the capacity is decision D7, log 7). -/
def Obligations.CallPushesReturnAddress : Prop :=
  ∀ (ra : Fin 8) (s : State), s.cfg.callStackDepth ≠ some s.cs.length →
    exec (.call (regByte ra)) s = .next { s with
      cs := (s.pc + 2) :: s.cs
      pc := BitVec.ofNat 9 (s.regs.get ra).toNat }

/-- RET (rule R106): its encoding; the top of the CallStack goes to `pc` and is removed, nothing else changes; on an
empty CallStack it stops with CallStackUnderflow. The opcode byte is decision D1 (log 1). -/
def Obligations.RetPopsReturnAddress : Prop :=
  encode .ret = [0x11] ∧
  (∀ (top : CodeAddr) (below : List CodeAddr) (s : State), s.cs = top :: below →
    exec .ret s = .next { s with cs := below, pc := top }) ∧
  ∀ s : State, s.cs = [] → exec .ret s = .next (s.fatalStop .callStackUnderflow (some 0x11))

/-- HLT (rule R107): its encoding; the status becomes HALTED and nothing else changes, `pc` included, whatever the
CallStack and the data stack hold; no cycle follows. The opcode byte is decision D1 (log 1). -/
def Obligations.HltHalts : Prop :=
  encode .hlt = [0x01] ∧
  (∀ s : State, exec .hlt s = .next { s with status := .halted }) ∧
  ∀ (s t : State) (n : Nat), exec .hlt s = .next t → core.run n t = .next t

/-- Nested calls unwind in LIFO order (rule R108): after a CALL, whatever happens in between, a RET executed with the
CallStack as the CALL left it resumes at the address after the CALL and restores the caller's CallStack. -/
def Obligations.ReturnResumesAfterItsCall : Prop :=
  ∀ (ra : Fin 8) (s u v : State), s.cfg.callStackDepth ≠ some s.cs.length →
    exec (.call (regByte ra)) s = .next u → v.cs = u.cs →
    ∃ t, exec .ret v = .next t ∧ t.pc = s.pc + 2 ∧ t.cs = s.cs ∧ t.regs = v.regs ∧ t.mem = v.mem

/-! ## Frames -/

/-- What ADD, MUL, MOD, AND, OR, XOR, SHL, SHR, NOT and LDI leave unchanged: every register but the one `o1` names,
every byte of memory, the flags, the CallStack, the output, the configuration; and the status and the fault record,
unless the instruction raised an error, which changes those two and nothing else. That the first operand is the
destination of the eight two-operand ALU instructions is decision D2 (log 2), that NOT has one operand is D3 (log 3). -/
def Obligations.RegisterWritersFrame : Prop :=
  ∀ (o1 o2 : Byte) (i : Instr) (s t : State),
    i ∈ [.add o1 o2, .mul o1 o2, .mod o1 o2, .and o1 o2, .or o1 o2, .xor o1 o2, .shl o1 o2, .shr o1 o2, .not o1,
      .ldi o1 o2] →
    exec i s = .next t →
    (∀ r : Fin 8, r.val ≠ o1.toNat → t.regs.get r = s.regs.get r) ∧
    (∀ a : Nat, Memory.read t.mem a = Memory.read s.mem a) ∧
    t.flags = s.flags ∧ t.cs = s.cs ∧ t.out = s.out ∧ t.cfg = s.cfg ∧
    ((t.status = s.status ∧ t.fault = s.fault) ∨ ∃ k, t = s.fatalStop k (some i.opcode))

/-- What ST leaves unchanged: every register and every byte of memory but the one at the address it stores to, which is
the value of the register `o1` names; a form that stores nothing (an illegal operand) changes no byte. -/
def Obligations.StFrame : Prop :=
  ∀ (o1 o2 : Byte) (s t : State), exec (.st o1 o2) s = .next t →
    t.regs = s.regs ∧
    (∀ ra : Fin 8, regIndex o1 = .ok ra →
      ∀ a : Nat, a ≠ (s.regs.get ra).toNat → Memory.read t.mem a = Memory.read s.mem a) ∧
    (¬ (Instr.st o1 o2).WellFormed → ∀ a : Nat, Memory.read t.mem a = Memory.read s.mem a) ∧
    t.flags = s.flags ∧ t.cs = s.cs ∧ t.out = s.out ∧ t.cfg = s.cfg ∧
    ((t.status = s.status ∧ t.fault = s.fault) ∨ ∃ k, t = s.fatalStop k (some 0x84))

/-- What PUSH leaves unchanged: every register but R7, and every byte of memory but the one at the address SP held
before the instruction (every byte, where it raises). -/
def Obligations.PushFrame : Prop :=
  ∀ (o1 : Byte) (s t : State), exec (.push o1) s = .next t →
    (∀ r : Fin 8, r ≠ 7 → t.regs.get r = s.regs.get r) ∧
    (∀ a : Nat, a ≠ s.sp.toNat → Memory.read t.mem a = Memory.read s.mem a) ∧
    t.flags = s.flags ∧ t.cs = s.cs ∧ t.out = s.out ∧ t.cfg = s.cfg ∧
    ((t.status = s.status ∧ t.fault = s.fault) ∨ ∃ k, t = s.fatalStop k (some 0x45))

/-- What POP leaves unchanged: every register but R7 and the one `o1` names, and every byte of memory (conflict C3). -/
def Obligations.PopFrame : Prop :=
  ∀ (o1 : Byte) (s t : State), exec (.pop o1) s = .next t →
    (∀ r : Fin 8, r ≠ 7 → r.val ≠ o1.toNat → t.regs.get r = s.regs.get r) ∧
    (∀ a : Nat, Memory.read t.mem a = Memory.read s.mem a) ∧
    t.flags = s.flags ∧ t.cs = s.cs ∧ t.out = s.out ∧ t.cfg = s.cfg ∧
    ((t.status = s.status ∧ t.fault = s.fault) ∨ ∃ k, t = s.fatalStop k (some 0x46))

/-- What CMP, PRN, JMP, JEQ, JNE, CALL, RET and HLT leave unchanged: every register and every byte of memory; the flags
but for CMP; the CallStack but for CALL and RET; the output but for PRN; the status but for HLT. -/
def Obligations.ControlAndOutputFrame : Prop :=
  ∀ (o1 o2 : Byte) (i : Instr) (s t : State),
    i ∈ [.cmp o1 o2, .prn o1, .jmp o1, .jeq o1, .jne o1, .call o1, .ret, .hlt] →
    exec i s = .next t →
    (∀ r : Fin 8, t.regs.get r = s.regs.get r) ∧
    (∀ a : Nat, Memory.read t.mem a = Memory.read s.mem a) ∧
    (i ≠ .cmp o1 o2 → t.flags = s.flags) ∧
    (i ≠ .call o1 → i ≠ .ret → t.cs = s.cs) ∧
    (i ≠ .prn o1 → t.out = s.out) ∧ t.cfg = s.cfg ∧
    (((i = .hlt ∨ t.status = s.status) ∧ t.fault = s.fault) ∨ ∃ k, t = s.fatalStop k (some i.opcode))

/-- What the handlers may touch, over all 21 instructions: memory is written by ST and PUSH only, the flags by CMP only,
the CallStack by CALL and RET only, the sink by PRN only, and the configuration by none (rule R66; the configuration
as a field of State is log 21). -/
def Obligations.HandlersTouchOnlyTheirOwn : Prop :=
  ∀ (i : Instr) (s t : State), exec i s = .next t →
    ((∃ a, Memory.read t.mem a ≠ Memory.read s.mem a) → (∃ o1 o2, i = .st o1 o2) ∨ ∃ o1, i = .push o1) ∧
    (t.flags ≠ s.flags → ∃ o1 o2, i = .cmp o1 o2) ∧
    (t.cs ≠ s.cs → (∃ o1, i = .call o1) ∨ i = .ret) ∧
    (t.out ≠ s.out → ∃ o1, i = .prn o1) ∧
    t.cfg = s.cfg

/-! ## Flags -/

/-- Writers and readers of the flags (rule R16): no instruction but CMP changes a flag; CMP that completes writes all
three, whatever they held; and the outcome of an instruction other than CMP, JEQ and JNE does not depend on the flags,
that of JEQ and JNE on E alone. -/
def Obligations.OnlyCmpWritesOnlyBranchesReadFlags : Prop :=
  (∀ (i : Instr) (s t : State), (∀ o1 o2, i ≠ .cmp o1 o2) → exec i s = .next t → t.flags = s.flags) ∧
  (∀ (ra rb : Fin 8) (s t : State) (f : Flags),
    exec (.cmp (regByte ra) (regByte rb)) s = .next t →
    exec (.cmp (regByte ra) (regByte rb)) { s with flags := f } = .next t) ∧
  ∀ (i : Instr) (s t : State) (f : Flags), (∀ o1 o2, i ≠ .cmp o1 o2) →
    ((∀ o1, i ≠ .jeq o1 ∧ i ≠ .jne o1) ∨ f.e = s.flags.e) →
    exec i s = .next t → exec i { s with flags := f } = .next { t with flags := f }

/-- LessThan and GreaterThan are written but never read: two runs of any length from states that differ only in them
end in states that differ at most in them (rule R16). -/
def Obligations.LessAndGreaterAreNeverObserved : Prop :=
  ∀ (k : Nat) (s t : State) (l g : Bool), core.run k s = .next t →
    ∃ l' g', core.run k (s.withLessGreater l g) = .next (t.withLessGreater l' g')

/-- The flag invariant (rule R17): no flag is set at reset (decision D4, log 4); "at most one" is kept by every step; a
CMP that completes leaves exactly one, Equal when and only when the values are equal; and "exactly one" is kept by
every step, for ever after. -/
def Obligations.FlagInvariant : Prop :=
  State.reset.flags = { e := false, l := false, g := false } ∧
  (∀ s t : State, s.flags.AtMostOne → step s = .next t → t.flags.AtMostOne) ∧
  (∀ (ra rb : Fin 8) (s t : State), exec (.cmp (regByte ra) (regByte rb)) s = .next t →
    t.flags.ExactlyOne ∧ (t.flags.e = true ↔ s.regs.get ra = s.regs.get rb)) ∧
  ∀ (k : Nat) (s t : State), s.flags.ExactlyOne → core.run k s = .next t → t.flags.ExactlyOne

/-! ## Invariants and whole runs -/

/-- Every step keeps the invariants of rule R26 and the canonical form of memory: pc in 0..256, at most one flag,
CallStack entries in 2..256 and within capacity, a fault record exactly when FAULTED, a legal configuration. -/
def Obligations.StepKeepsInvariant : Prop :=
  ∀ s t : State, Inv s → step s = .next t → Inv t

/-- The reset state meets the invariant. -/
def Obligations.ResetMeetsInvariant : Prop :=
  Inv State.reset

/-- Every launch state meets the invariant, and so does every state a run from it reaches, for every configuration,
image and memory rest. -/
def Obligations.EveryReachableStateMeetsInvariant : Prop :=
  ∀ (c : Config) (image : List Byte) (memRest : Nat → Byte) (s t : State) (k : Nat),
    State.launch c image memRest = .next s → core.run k s = .next t → Inv t

/-- "CallStack depth equals the net (Call - Return) count": over any run, from any state (rules R18, R26). -/
def Obligations.CallStackDepthIsNetCalls : Prop :=
  ∀ (k : Nat) (s t : State), core.run k s = .next t → (t.cs.length : Int) = (s.cs.length : Int) + netCalls k s

/-- The output only grows, by at most one byte a step, and the configuration never changes, over any run (rules R21,
R5; the sink is decision D16, log 15). -/
def Obligations.OutputOnlyGrows : Prop :=
  ∀ (k : Nat) (s t : State), core.run k s = .next t →
    (∃ l : List Byte, t.out = s.out ++ l ∧ l.length ≤ k) ∧ t.cfg = s.cfg

/-! ## Reset and the host interface -/

/-- The reset values of rule R130, element by element. R7 is SP_INIT with its default 0xF4 (C1, D5, log 5), the defaults of
STACK_FLOOR and CALLSTACK_DEPTH are decisions D6 and D7 (log 6, 7), the configuration is a field of State by log 21, the
flags are decision D4 (log 4), and that every cell reads 0 is the model's choice of MEM_REST (log 11). -/
def Obligations.ResetValues : Prop :=
  State.reset.pc = 0 ∧ (∀ r : Fin 8, r ≠ 7 → State.reset.regs.get r = 0) ∧
  State.reset.regs.get 7 = 0xF4 ∧ State.reset.cfg = { spInit := 0xF4, stackFloor := 0, callStackDepth := none } ∧
  State.reset.flags = { e := false, l := false, g := false } ∧
  State.reset.cs = [] ∧ State.reset.status = .running ∧ State.reset.fault = none ∧ State.reset.out = [] ∧
  ∀ a : Nat, Memory.read State.reset.mem a = 0

/-- The launch (rules R130, R134, R135): for a legal configuration and an image of at most 256 bytes the state after
reset and preload; a longer image is refused (decision D19, log 18). -/
def Obligations.LaunchLoadsImage : Prop :=
  ∀ (c : Config) (image : List Byte) (memRest : Nat → Byte), c.wf →
    (image.length ≤ 256 → ∃ s, State.launch c image memRest = .next s ∧
      s = { State.resetWith c with mem := s.mem } ∧ s.regs.get 7 = c.spInit ∧
      (∀ (a : Nat) (b : Byte), image[a]? = some b → Memory.read s.mem a = b) ∧
      ∀ a : Nat, image.length ≤ a → a < 256 → Memory.read s.mem a = memRest a) ∧
    (256 < image.length → State.launch c image memRest = .refused .imageTooLong)

/-- The first instruction of a launched image is the one at address 0 (rules R130, R131, preload R134): the first step
of a launch state is the cycle of rule R62 on the instruction whose encoding begins the image. -/
def Obligations.ExecutionStartsAtAddressZero : Prop :=
  ∀ (c : Config) (i : Instr) (rest : List Byte) (memRest : Nat → Byte) (s : State),
    State.launch c (encode i ++ rest) memRest = .next s → step s = exec i s

/-- The snapshot (rule R139): pc, the cells at pc, pc + 1 and pc + 2, each absent beyond address 255 (decision D14,
log 14), the registers and the flags; it does not depend on CS, OUT, status or fault. -/
def Obligations.SnapshotContents : Prop :=
  ∀ s : State, s.snapshot.pc = s.pc ∧ s.snapshot.regs = s.regs ∧ s.snapshot.flags = s.flags ∧
    s.snapshot.opcode = (if s.pc.toNat ≤ 255 then some (Memory.read s.mem s.pc.toNat) else none) ∧
    s.snapshot.next1 = (if s.pc.toNat + 1 ≤ 255 then some (Memory.read s.mem (s.pc.toNat + 1)) else none) ∧
    s.snapshot.next2 = (if s.pc.toNat + 2 ≤ 255 then some (Memory.read s.mem (s.pc.toNat + 2)) else none)

/-- The end-of-run report (rule R138): after an error the caller sees FAULTED, the record and its code; after HLT it
sees HALTED and no error (the codes are decision D8, log 8). -/
def Obligations.EndReportAfterEachEnd : Prop :=
  (∀ (s : State) (k : ErrorKind) (op : Option Byte), (s.fatalStop k op).endReport =
    some { status := .faulted, fault := some { kind := k, pc := s.pc, opcode := op }, code := some k.code }) ∧
  (∀ s t : State, s.fault = none → exec .hlt s = .next t →
    t.endReport = some { status := .halted, fault := none, code := none }) ∧
  (∀ s : State, s.status = .running → s.endReport = none) ∧
  [ErrorKind.addressOutOfRange, .unknownOpcode, .unsupportedALUOperation, .divideByZero, .stackOverflow,
    .stackUnderflow, .callStackUnderflow].map ErrorKind.code = [1, 2, 3, 4, 5, 6, 7]
end

