-- ==== Sys2Proof/Laws/Decode.lean ====
section
/-! SUPPORT. The laws of the opcode table: every instruction's opcode byte selects its own row, and a row found by its byte is a
row of the table. -/

namespace Sys2Proof

/-- The row of rule R48 an instruction belongs to. -/
def Instr.row : Instr → RowShape
  | .hlt => .f0 .hlt
  | .ret => .f0 .ret
  | .push _ => .f1 .push
  | .pop _ => .f1 .pop
  | .prn _ => .f1 .prn
  | .call _ => .f1 .call
  | .jmp _ => .f1 .jmp
  | .jeq _ => .f1 .jeq
  | .jne _ => .f1 .jne
  | .not _ => .f1 .not
  | .ldi _ _ => .f2 .ldi
  | .st _ _ => .f2 .st
  | .add _ _ => .f2 .add
  | .mul _ _ => .f2 .mul
  | .mod _ _ => .f2 .mod
  | .cmp _ _ => .f2 .cmp
  | .and _ _ => .f2 .and
  | .or _ _ => .f2 .or
  | .xor _ _ => .f2 .xor
  | .shl _ _ => .f2 .shl
  | .shr _ _ => .f2 .shr

/-- No two rows of the table have the same opcode byte (rule R48: "pairwise distinct"). -/
theorem opcodeTable_distinct : (opcodeTable.map Prod.fst).Nodup := by decide

/-- An instruction's opcode byte selects its row. -/
theorem decodeOpcode_opcode (i : Instr) : decodeOpcode i.opcode = some i.row := by
  cases i <;> rfl

/-- A row that a byte selects stands in the table with that byte. -/
theorem mem_opcodeTable_of_decodeOpcode {op : Byte} {row : RowShape} (h : decodeOpcode op = some row) :
    (op, row) ∈ opcodeTable := by
  unfold decodeOpcode at h
  revert h
  generalize opcodeTable = tbl
  induction tbl with
  | nil => intro h; cases h
  | cons r tbl ih =>
    obtain ⟨k, shape⟩ := r
    intro h
    rw [List.lookup_cons] at h
    split at h
    · rename_i hk
      have hk' : op = k := by simpa using hk
      injection h with h
      subst hk' h
      exact List.mem_cons_self
    · exact List.mem_cons_of_mem _ (ih h)

/-- The operand bytes of an instruction build it back from its row. -/
theorem takeOperands_row (i : Instr) (rest : List Byte) :
    i.row.takeOperands (i.operandBytes ++ rest) = some (i, rest) := by
  cases i <;> rfl

/-- Whatever operand bytes a row is given, the instruction it builds has the opcode `op` and those operand bytes. -/
def RowShape.Builds (op : Byte) : RowShape → Prop
  | .f0 i => i.opcode = op ∧ i.operandBytes = []
  | .f1 mk => ∀ b, (mk b).opcode = op ∧ (mk b).operandBytes = [b]
  | .f2 mk => ∀ b c, (mk b c).opcode = op ∧ (mk b c).operandBytes = [b, c]

/-- Every row of rule R48 builds instructions of its own opcode byte. -/
theorem opcodeTable_builds : ∀ r ∈ opcodeTable, r.2.Builds r.1 := by
  simp [opcodeTable, RowShape.Builds, Instr.opcode, Instr.operandBytes]

/-- What a row takes from a byte sequence is the operand bytes of the instruction it answers. -/
theorem row_of_takeOperands {op : Byte} {row : RowShape} {bs rest : List Byte} {i : Instr}
    (hm : (op, row) ∈ opcodeTable) (ht : row.takeOperands bs = some (i, rest)) :
    i.opcode = op ∧ bs = i.operandBytes ++ rest := by
  have hb : row.Builds op := opcodeTable_builds _ hm
  revert ht
  fun_cases row.takeOperands bs <;> intro ht <;> cases ht
  · exact ⟨hb.1, by rw [hb.2]; rfl⟩
  · exact ⟨(hb _).1, by rw [(hb _).2]; rfl⟩
  · exact ⟨(hb _ _).1, by rw [(hb _ _).2]; rfl⟩

/-- Every encoding is one, two or three bytes long (rule R45). -/
theorem encode_length_bounds (i : Instr) : 1 ≤ (encode i).length ∧ (encode i).length ≤ 3 := by
  cases i <;> simp [encode, Instr.operandBytes]

/-- Only HLT has HLT's opcode byte. -/
theorem opcode_eq_hlt {i : Instr} (h : i.opcode = 0x01#8) : i = .hlt := by
  cases i <;> first | rfl | (revert h; simp only [Instr.opcode]; exact fun h => absurd h (by decide))

/-- What `decode` answers on a non-empty byte sequence. -/
theorem decode_cons (op : Byte) (rest : List Byte) :
    decode (op :: rest) =
      match decodeOpcode op with
      | none => .error (.unknownOpcode op)
      | some row =>
        match row.takeOperands rest with
        | none => .error (.operandMissing op)
        | some r => .ok r := rfl

@[simp] theorem toNat_regByte (r : Fin 8) : (regByte r).toNat = r.val := by
  have := r.isLt
  simp [regByte]
  omega

end Sys2Proof
end

