-- ==== Sys2Proof/Laws/Memory.lean ====
section
/-! SUPPORT. The laws of memory: read after write, the canonical form kept by every operation, and equal reads make equal
canonical memories. -/

namespace Sys2Proof.Machine

@[simp] theorem Memory.read_nil (a : Nat) : Memory.read [] a = Memory.unlisted := rfl

theorem Memory.read_cons (k : Nat) (b : Byte) (m : Memory) (a : Nat) :
    Memory.read ((k, b) :: m) a = if k = a then b else Memory.read m a := rfl

theorem Memory.erase_nil (a : Nat) : Memory.erase [] a = [] := rfl

theorem Memory.erase_cons (k : Nat) (b : Byte) (m : Memory) (a : Nat) :
    Memory.erase ((k, b) :: m) a = if k = a then Memory.erase m a else (k, b) :: Memory.erase m a := by
  by_cases h : k = a <;> simp [Memory.erase, h]

theorem Memory.read_erase_same (m : Memory) (a : Nat) : Memory.read (Memory.erase m a) a = Memory.unlisted := by
  induction m with
  | nil => rfl
  | cons c m ih =>
    obtain ⟨k, b⟩ := c
    rw [Memory.erase_cons]
    split
    · exact ih
    · rename_i h; rw [Memory.read_cons, if_neg h, ih]

theorem Memory.read_erase_ne (m : Memory) {a x : Nat} (h : x ≠ a) :
    Memory.read (Memory.erase m a) x = Memory.read m x := by
  induction m with
  | nil => rfl
  | cons c m ih =>
    obtain ⟨k, b⟩ := c
    rw [Memory.erase_cons]
    split
    · rename_i hk; rw [ih, Memory.read_cons, if_neg (by omega)]
    · rw [Memory.read_cons, Memory.read_cons, ih]

theorem Memory.read_insert_ne (m : Memory) {a x : Nat} (v : Byte) (h : x ≠ a) :
    Memory.read (Memory.insert m a v) x = Memory.read m x := by
  induction m with
  | nil => simp [Memory.insert, Memory.read_cons, Ne.symm h]
  | cons c m ih =>
    obtain ⟨k, b⟩ := c
    rw [Memory.insert]
    split
    · rw [Memory.read_cons, if_neg (Ne.symm h)]
    · rw [Memory.read_cons, Memory.read_cons, ih]

theorem Memory.read_insert_same (m : Memory) (a : Nat) (v : Byte) (h : ∀ c ∈ m, c.1 ≠ a) :
    Memory.read (Memory.insert m a v) a = v := by
  induction m with
  | nil => simp [Memory.insert, Memory.read_cons]
  | cons c m ih =>
    obtain ⟨k, b⟩ := c
    rw [Memory.insert]
    split
    · simp [Memory.read_cons]
    · rw [Memory.read_cons, if_neg (h (k, b) (by simp)), ih (fun c hc => h c (List.mem_cons_of_mem _ hc))]

theorem Memory.mem_erase {m : Memory} {a : Nat} {c : Host.Cell} (h : c ∈ Memory.erase m a) : c ∈ m ∧ c.1 ≠ a := by
  simpa [Memory.erase] using h

theorem Memory.mem_insert {m : Memory} {a : Nat} {v : Byte} {c : Host.Cell} (h : c ∈ Memory.insert m a v) :
    c = (a, v) ∨ c ∈ m := by
  induction m with
  | nil => simpa [Memory.insert] using h
  | cons d m ih =>
    obtain ⟨k, b⟩ := d
    rw [Memory.insert] at h
    split at h
    · simpa using h
    · rcases List.mem_cons.mp h with rfl | h
      · simp
      · rcases ih h with h | h
        · exact .inl h
        · exact .inr (List.mem_cons_of_mem _ h)

/-- A read of the cell just written gives the byte written, on every memory. -/
@[simp] theorem Memory.read_write_same (m : Memory) (a : Nat) (v : Byte) :
    Memory.read (Memory.write m a v) a = v := by
  unfold Memory.write
  split
  · rename_i h; rw [Memory.read_erase_same, h]
  · exact Memory.read_insert_same _ _ _ fun c hc => (Memory.mem_erase hc).2

/-- A write leaves every other cell alone, on every memory. -/
theorem Memory.read_write_ne (m : Memory) {a x : Nat} (v : Byte) (h : x ≠ a) :
    Memory.read (Memory.write m a v) x = Memory.read m x := by
  unfold Memory.write
  split
  · exact Memory.read_erase_ne m h
  · rw [Memory.read_insert_ne _ _ h, Memory.read_erase_ne m h]

theorem Memory.wf_nil : Memory.wf [] :=
  ⟨List.Pairwise.nil, fun _ h => nomatch h⟩

theorem Memory.wf_erase {m : Memory} (a : Nat) (h : Memory.wf m) : Memory.wf (Memory.erase m a) :=
  ⟨h.1.filter _, fun c hc => h.2 c (Memory.mem_erase hc).1⟩

theorem Memory.pairwise_insert {m : Memory} {a : Nat} (v : Byte) (hs : m.Pairwise fun c d => c.1 < d.1)
    (ha : ∀ c ∈ m, c.1 ≠ a) : (Memory.insert m a v).Pairwise fun c d => c.1 < d.1 := by
  induction m with
  | nil => simp [Memory.insert]
  | cons c m ih =>
    obtain ⟨k, b⟩ := c
    rw [List.pairwise_cons] at hs
    have hk : k ≠ a := ha (k, b) (by simp)
    rw [Memory.insert]
    split
    · rename_i hlt
      rw [List.pairwise_cons, List.pairwise_cons]
      refine ⟨fun d hd => ?_, hs⟩
      rcases List.mem_cons.mp hd with rfl | hd
      · exact hlt
      · exact Nat.lt_trans hlt (hs.1 d hd)
    · rename_i hlt
      rw [List.pairwise_cons]
      refine ⟨fun d hd => ?_, ih hs.2 fun c hc => ha c (List.mem_cons_of_mem _ hc)⟩
      rcases Memory.mem_insert hd with rfl | hd
      · show k < a; omega
      · exact hs.1 d hd

/-- Every write to a cell of the address space keeps the canonical form. -/
theorem Memory.wf_write {m : Memory} {a : Nat} (v : Byte) (ha : a < 256) (h : Memory.wf m) :
    Memory.wf (Memory.write m a v) := by
  unfold Memory.write
  split
  · exact Memory.wf_erase a h
  · rename_i hv
    refine ⟨Memory.pairwise_insert v (Memory.wf_erase a h).1 fun c hc => (Memory.mem_erase hc).2, fun c hc => ?_⟩
    rcases Memory.mem_insert hc with rfl | hc
    · exact ⟨ha, hv⟩
    · exact h.2 c (Memory.mem_erase hc).1

theorem Memory.wf_load {m : Memory} (addr : Nat) (bs : List Byte) (h : Memory.wf m) :
    Memory.wf (Memory.load m addr bs) := by
  induction bs generalizing m addr with
  | nil => exact h
  | cons b bs ih =>
    rw [Memory.load]
    apply ih
    split
    · rename_i ha; exact Memory.wf_write b ha h
    · exact h

theorem Memory.mem_tabulate {f : Nat → Byte} {n a : Nat} {c : Host.Cell} (h : c ∈ Memory.tabulate f n a) :
    a ≤ c.1 ∧ c.1 < a + n ∧ c.2 ≠ Memory.unlisted := by
  induction n generalizing a with
  | zero => simp [Memory.tabulate] at h
  | succ n ih =>
    rw [Memory.tabulate] at h
    split at h
    · obtain ⟨h1, h2, h3⟩ := ih h
      exact ⟨by omega, by omega, h3⟩
    · rename_i hf
      rcases List.mem_cons.mp h with rfl | h
      · exact ⟨le_refl _, by simp, hf⟩
      · obtain ⟨h1, h2, h3⟩ := ih h
        exact ⟨by omega, by omega, h3⟩

theorem Memory.wf_tabulate (f : Nat → Byte) : Memory.wf (Memory.tabulate f 256 0) := by
  refine ⟨?_, fun c hc => ⟨by have := Memory.mem_tabulate hc; omega, (Memory.mem_tabulate hc).2.2⟩⟩
  generalize (0 : Nat) = a
  generalize (256 : Nat) = n
  induction n generalizing a with
  | zero => simp [Memory.tabulate]
  | succ n ih =>
    rw [Memory.tabulate]
    split
    · exact ih _
    · exact List.pairwise_cons.mpr ⟨fun d hd => by have := Memory.mem_tabulate hd; show a < d.1; omega, ih _⟩

theorem Memory.read_tabulate (f : Nat → Byte) {n a x : Nat} (h1 : a ≤ x) (h2 : x < a + n) :
    Memory.read (Memory.tabulate f n a) x = f x := by
  have out : ∀ {n a x : Nat}, x < a → Memory.read (Memory.tabulate f n a) x = Memory.unlisted := by
    intro n
    induction n with
    | zero => intros; rfl
    | succ n ih =>
      intro a x h
      rw [Memory.tabulate]
      split
      · exact ih (by omega)
      · rw [Memory.read_cons, if_neg (by omega)]; exact ih (by omega)
  induction n generalizing a with
  | zero => omega
  | succ n ih =>
    rw [Memory.tabulate]
    by_cases hx : x = a
    · subst hx
      split
      · rename_i hf; rw [out (by omega), hf]
      · simp [Memory.read_cons]
    · split
      · exact ih (by omega) (by omega)
      · rw [Memory.read_cons, if_neg (by omega)]; exact ih (by omega) (by omega)

theorem Memory.read_of_lt {m : Memory} {a : Nat} (h : ∀ c ∈ m, a < c.1) : Memory.read m a = Memory.unlisted := by
  induction m with
  | nil => rfl
  | cons c m ih =>
    obtain ⟨k, b⟩ := c
    have := h (k, b) (by simp)
    rw [Memory.read_cons, if_neg (by simp at this; omega)]
    exact ih fun c hc => h c (List.mem_cons_of_mem _ hc)

/-- Canonical memories that read the same everywhere are the same list. -/
theorem Memory.eq_of_read {m m' : Memory} (h : Memory.wf m) (h' : Memory.wf m')
    (hr : ∀ a, Memory.read m a = Memory.read m' a) : m = m' := by
  induction m generalizing m' with
  | nil =>
    cases m' with
    | nil => rfl
    | cons c m' =>
      obtain ⟨k, b⟩ := c
      have hk := hr k
      simp only [Memory.read_nil, Memory.read_cons, if_pos] at hk
      exact absurd hk.symm (h'.2 (k, b) (by simp)).2
  | cons c m ih =>
    obtain ⟨k, b⟩ := c
    have hc := List.pairwise_cons.mp h.1
    cases m' with
    | nil =>
      have hk := hr k
      simp only [Memory.read_nil, Memory.read_cons, if_pos] at hk
      exact absurd hk (h.2 (k, b) (by simp)).2
    | cons c' m' =>
      obtain ⟨k', b'⟩ := c'
      have hc' := List.pairwise_cons.mp h'.1
      have hkk : k = k' := by
        rcases Nat.lt_trichotomy k k' with hlt | heq | hlt
        · have hk := hr k
          rw [Memory.read_cons, if_pos rfl, Memory.read_of_lt] at hk
          · exact absurd hk (h.2 (k, b) (by simp)).2
          · intro d hd
            rcases List.mem_cons.mp hd with rfl | hd
            · exact hlt
            · exact Nat.lt_trans hlt (hc'.1 d hd)
        · exact heq
        · have hk := (hr k').symm
          rw [Memory.read_cons, if_pos rfl, Memory.read_of_lt] at hk
          · exact absurd hk (h'.2 (k', b') (by simp)).2
          · intro d hd
            rcases List.mem_cons.mp hd with rfl | hd
            · exact hlt
            · exact Nat.lt_trans hlt (hc.1 d hd)
      subst hkk
      have hb : b = b' := by simpa [Memory.read_cons] using hr k
      subst hb
      have htail : m = m' := by
        refine ih ⟨hc.2, fun d hd => h.2 d (List.mem_cons_of_mem _ hd)⟩
          ⟨hc'.2, fun d hd => h'.2 d (List.mem_cons_of_mem _ hd)⟩ fun a => ?_
        by_cases ha : k = a
        · subst ha
          rw [Memory.read_of_lt hc.1, Memory.read_of_lt hc'.1]
        · have := hr a
          rwa [Memory.read_cons, Memory.read_cons, if_neg ha, if_neg ha] at this
      rw [htail]

/-! ### The bounded accesses of rules R31 and R32 -/

theorem memRead_ok {m : Memory} {addr : Int} {v : Byte} (h : memRead m addr = .ok v) :
    0 ≤ addr ∧ addr ≤ 255 ∧ v = Memory.read m addr.toNat := by
  unfold memRead at h
  split at h
  · rename_i hr
    injection h with h
    exact ⟨hr.1, hr.2, h.symm⟩
  · cases h

theorem memWrite_ok {m m' : Memory} {addr : Int} {v : Byte} (h : memWrite m addr v = .ok m') :
    0 ≤ addr ∧ addr ≤ 255 ∧ m' = Memory.write m addr.toNat v := by
  unfold memWrite at h
  split at h
  · rename_i hr
    injection h with h
    exact ⟨hr.1, hr.2, h.symm⟩
  · cases h

/-- An access at a natural address inside the memory. -/
theorem memRead_nat (m : Memory) {a : Nat} (h : a ≤ 255) : memRead m (a : Int) = .ok (Memory.read m a) := by
  unfold memRead
  rw [if_pos (by omega), Int.toNat_natCast]

theorem memRead_nat_out (m : Memory) {a : Nat} (h : 255 < a) : memRead m (a : Int) = .error .addressOutOfRange := by
  unfold memRead
  rw [if_neg (by omega)]

theorem memWrite_nat (m : Memory) {a : Nat} (v : Byte) (h : a ≤ 255) :
    memWrite m (a : Int) v = .ok (Memory.write m a v) := by
  unfold memWrite
  rw [if_pos (by omega), Int.toNat_natCast]

/-- A register value is always an address inside the memory (rule R34). -/
theorem memWrite_byte (m : Memory) (a v : Byte) :
    memWrite m (a.toNat : Int) v = .ok (Memory.write m a.toNat v) :=
  memWrite_nat m v (by have := a.isLt; omega)

end Sys2Proof.Machine
end

