-- ==== Sys2Proof/Laws/State.lean ====
section
/-! SUPPORT. One lemma per field per update of State, so that no later proof unfolds a record update; and the register file's
read-after-write laws. -/

namespace Sys2Proof.Machine

/-! ### setReg -/

@[simp] theorem State.setReg_regs (s : State) (i : Fin 8) (v : Byte) :
    (s.setReg i v).regs = s.regs.set i v := rfl
@[simp] theorem State.setReg_pc (s : State) (i : Fin 8) (v : Byte) :
    (s.setReg i v).pc = s.pc := rfl
@[simp] theorem State.setReg_flags (s : State) (i : Fin 8) (v : Byte) :
    (s.setReg i v).flags = s.flags := rfl
@[simp] theorem State.setReg_mem (s : State) (i : Fin 8) (v : Byte) :
    (s.setReg i v).mem = s.mem := rfl
@[simp] theorem State.setReg_cs (s : State) (i : Fin 8) (v : Byte) :
    (s.setReg i v).cs = s.cs := rfl
@[simp] theorem State.setReg_status (s : State) (i : Fin 8) (v : Byte) :
    (s.setReg i v).status = s.status := rfl
@[simp] theorem State.setReg_fault (s : State) (i : Fin 8) (v : Byte) :
    (s.setReg i v).fault = s.fault := rfl
@[simp] theorem State.setReg_out (s : State) (i : Fin 8) (v : Byte) :
    (s.setReg i v).out = s.out := rfl
@[simp] theorem State.setReg_cfg (s : State) (i : Fin 8) (v : Byte) :
    (s.setReg i v).cfg = s.cfg := rfl

/-! ### setMem -/

@[simp] theorem State.setMem_regs (s : State) (m : Memory) :
    (s.setMem m).regs = s.regs := rfl
@[simp] theorem State.setMem_pc (s : State) (m : Memory) :
    (s.setMem m).pc = s.pc := rfl
@[simp] theorem State.setMem_flags (s : State) (m : Memory) :
    (s.setMem m).flags = s.flags := rfl
@[simp] theorem State.setMem_mem (s : State) (m : Memory) :
    (s.setMem m).mem = m := rfl
@[simp] theorem State.setMem_cs (s : State) (m : Memory) :
    (s.setMem m).cs = s.cs := rfl
@[simp] theorem State.setMem_status (s : State) (m : Memory) :
    (s.setMem m).status = s.status := rfl
@[simp] theorem State.setMem_fault (s : State) (m : Memory) :
    (s.setMem m).fault = s.fault := rfl
@[simp] theorem State.setMem_out (s : State) (m : Memory) :
    (s.setMem m).out = s.out := rfl
@[simp] theorem State.setMem_cfg (s : State) (m : Memory) :
    (s.setMem m).cfg = s.cfg := rfl

/-! ### advance -/

@[simp] theorem State.advance_regs (s : State) (n : Nat) :
    (s.advance n).regs = s.regs := rfl
@[simp] theorem State.advance_pc (s : State) (n : Nat) :
    (s.advance n).pc = s.pc + BitVec.ofNat 9 (1 + n) := rfl
@[simp] theorem State.advance_flags (s : State) (n : Nat) :
    (s.advance n).flags = s.flags := rfl
@[simp] theorem State.advance_mem (s : State) (n : Nat) :
    (s.advance n).mem = s.mem := rfl
@[simp] theorem State.advance_cs (s : State) (n : Nat) :
    (s.advance n).cs = s.cs := rfl
@[simp] theorem State.advance_status (s : State) (n : Nat) :
    (s.advance n).status = s.status := rfl
@[simp] theorem State.advance_fault (s : State) (n : Nat) :
    (s.advance n).fault = s.fault := rfl
@[simp] theorem State.advance_out (s : State) (n : Nat) :
    (s.advance n).out = s.out := rfl
@[simp] theorem State.advance_cfg (s : State) (n : Nat) :
    (s.advance n).cfg = s.cfg := rfl

/-! ### redirect -/

@[simp] theorem State.redirect_regs (s : State) (a : CodeAddr) :
    (s.redirect a).regs = s.regs := rfl
@[simp] theorem State.redirect_pc (s : State) (a : CodeAddr) :
    (s.redirect a).pc = a := rfl
@[simp] theorem State.redirect_flags (s : State) (a : CodeAddr) :
    (s.redirect a).flags = s.flags := rfl
@[simp] theorem State.redirect_mem (s : State) (a : CodeAddr) :
    (s.redirect a).mem = s.mem := rfl
@[simp] theorem State.redirect_cs (s : State) (a : CodeAddr) :
    (s.redirect a).cs = s.cs := rfl
@[simp] theorem State.redirect_status (s : State) (a : CodeAddr) :
    (s.redirect a).status = s.status := rfl
@[simp] theorem State.redirect_fault (s : State) (a : CodeAddr) :
    (s.redirect a).fault = s.fault := rfl
@[simp] theorem State.redirect_out (s : State) (a : CodeAddr) :
    (s.redirect a).out = s.out := rfl
@[simp] theorem State.redirect_cfg (s : State) (a : CodeAddr) :
    (s.redirect a).cfg = s.cfg := rfl

/-! ### pushCall -/

@[simp] theorem State.pushCall_regs (s : State) (a : CodeAddr) :
    (s.pushCall a).regs = s.regs := rfl
@[simp] theorem State.pushCall_pc (s : State) (a : CodeAddr) :
    (s.pushCall a).pc = s.pc := rfl
@[simp] theorem State.pushCall_flags (s : State) (a : CodeAddr) :
    (s.pushCall a).flags = s.flags := rfl
@[simp] theorem State.pushCall_mem (s : State) (a : CodeAddr) :
    (s.pushCall a).mem = s.mem := rfl
@[simp] theorem State.pushCall_cs (s : State) (a : CodeAddr) :
    (s.pushCall a).cs = a :: s.cs := rfl
@[simp] theorem State.pushCall_status (s : State) (a : CodeAddr) :
    (s.pushCall a).status = s.status := rfl
@[simp] theorem State.pushCall_fault (s : State) (a : CodeAddr) :
    (s.pushCall a).fault = s.fault := rfl
@[simp] theorem State.pushCall_out (s : State) (a : CodeAddr) :
    (s.pushCall a).out = s.out := rfl
@[simp] theorem State.pushCall_cfg (s : State) (a : CodeAddr) :
    (s.pushCall a).cfg = s.cfg := rfl

/-! ### setCalls -/

@[simp] theorem State.setCalls_regs (s : State) (l : List CodeAddr) :
    (s.setCalls l).regs = s.regs := rfl
@[simp] theorem State.setCalls_pc (s : State) (l : List CodeAddr) :
    (s.setCalls l).pc = s.pc := rfl
@[simp] theorem State.setCalls_flags (s : State) (l : List CodeAddr) :
    (s.setCalls l).flags = s.flags := rfl
@[simp] theorem State.setCalls_mem (s : State) (l : List CodeAddr) :
    (s.setCalls l).mem = s.mem := rfl
@[simp] theorem State.setCalls_cs (s : State) (l : List CodeAddr) :
    (s.setCalls l).cs = l := rfl
@[simp] theorem State.setCalls_status (s : State) (l : List CodeAddr) :
    (s.setCalls l).status = s.status := rfl
@[simp] theorem State.setCalls_fault (s : State) (l : List CodeAddr) :
    (s.setCalls l).fault = s.fault := rfl
@[simp] theorem State.setCalls_out (s : State) (l : List CodeAddr) :
    (s.setCalls l).out = s.out := rfl
@[simp] theorem State.setCalls_cfg (s : State) (l : List CodeAddr) :
    (s.setCalls l).cfg = s.cfg := rfl

/-! ### emit -/

@[simp] theorem State.emit_regs (s : State) (v : Byte) :
    (s.emit v).regs = s.regs := rfl
@[simp] theorem State.emit_pc (s : State) (v : Byte) :
    (s.emit v).pc = s.pc := rfl
@[simp] theorem State.emit_flags (s : State) (v : Byte) :
    (s.emit v).flags = s.flags := rfl
@[simp] theorem State.emit_mem (s : State) (v : Byte) :
    (s.emit v).mem = s.mem := rfl
@[simp] theorem State.emit_cs (s : State) (v : Byte) :
    (s.emit v).cs = s.cs := rfl
@[simp] theorem State.emit_status (s : State) (v : Byte) :
    (s.emit v).status = s.status := rfl
@[simp] theorem State.emit_fault (s : State) (v : Byte) :
    (s.emit v).fault = s.fault := rfl
@[simp] theorem State.emit_out (s : State) (v : Byte) :
    (s.emit v).out = s.out ++ [v] := rfl
@[simp] theorem State.emit_cfg (s : State) (v : Byte) :
    (s.emit v).cfg = s.cfg := rfl

/-! ### setFlags -/

@[simp] theorem State.setFlags_regs (s : State) (f : Flags) :
    (s.setFlags f).regs = s.regs := rfl
@[simp] theorem State.setFlags_pc (s : State) (f : Flags) :
    (s.setFlags f).pc = s.pc := rfl
@[simp] theorem State.setFlags_flags (s : State) (f : Flags) :
    (s.setFlags f).flags = f := rfl
@[simp] theorem State.setFlags_mem (s : State) (f : Flags) :
    (s.setFlags f).mem = s.mem := rfl
@[simp] theorem State.setFlags_cs (s : State) (f : Flags) :
    (s.setFlags f).cs = s.cs := rfl
@[simp] theorem State.setFlags_status (s : State) (f : Flags) :
    (s.setFlags f).status = s.status := rfl
@[simp] theorem State.setFlags_fault (s : State) (f : Flags) :
    (s.setFlags f).fault = s.fault := rfl
@[simp] theorem State.setFlags_out (s : State) (f : Flags) :
    (s.setFlags f).out = s.out := rfl
@[simp] theorem State.setFlags_cfg (s : State) (f : Flags) :
    (s.setFlags f).cfg = s.cfg := rfl

/-! ### halt -/

@[simp] theorem State.halt_regs (s : State) :
    (s.halt).regs = s.regs := rfl
@[simp] theorem State.halt_pc (s : State) :
    (s.halt).pc = s.pc := rfl
@[simp] theorem State.halt_flags (s : State) :
    (s.halt).flags = s.flags := rfl
@[simp] theorem State.halt_mem (s : State) :
    (s.halt).mem = s.mem := rfl
@[simp] theorem State.halt_cs (s : State) :
    (s.halt).cs = s.cs := rfl
@[simp] theorem State.halt_status (s : State) :
    (s.halt).status = .halted := rfl
@[simp] theorem State.halt_fault (s : State) :
    (s.halt).fault = s.fault := rfl
@[simp] theorem State.halt_out (s : State) :
    (s.halt).out = s.out := rfl
@[simp] theorem State.halt_cfg (s : State) :
    (s.halt).cfg = s.cfg := rfl

/-! ### fatalStop -/

@[simp] theorem State.fatalStop_regs (s : State) (k : ErrorKind) (op : Option Byte) :
    (s.fatalStop k op).regs = s.regs := rfl
@[simp] theorem State.fatalStop_pc (s : State) (k : ErrorKind) (op : Option Byte) :
    (s.fatalStop k op).pc = s.pc := rfl
@[simp] theorem State.fatalStop_flags (s : State) (k : ErrorKind) (op : Option Byte) :
    (s.fatalStop k op).flags = s.flags := rfl
@[simp] theorem State.fatalStop_mem (s : State) (k : ErrorKind) (op : Option Byte) :
    (s.fatalStop k op).mem = s.mem := rfl
@[simp] theorem State.fatalStop_cs (s : State) (k : ErrorKind) (op : Option Byte) :
    (s.fatalStop k op).cs = s.cs := rfl
@[simp] theorem State.fatalStop_status (s : State) (k : ErrorKind) (op : Option Byte) :
    (s.fatalStop k op).status = .faulted := rfl
@[simp] theorem State.fatalStop_fault (s : State) (k : ErrorKind) (op : Option Byte) :
    (s.fatalStop k op).fault = some { kind := k, pc := s.pc, opcode := op } := rfl
@[simp] theorem State.fatalStop_out (s : State) (k : ErrorKind) (op : Option Byte) :
    (s.fatalStop k op).out = s.out := rfl
@[simp] theorem State.fatalStop_cfg (s : State) (k : ErrorKind) (op : Option Byte) :
    (s.fatalStop k op).cfg = s.cfg := rfl

/-! ### withLessGreater -/

@[simp] theorem State.withLessGreater_regs (s : State) (l g : Bool) :
    (s.withLessGreater l g).regs = s.regs := rfl
@[simp] theorem State.withLessGreater_pc (s : State) (l g : Bool) :
    (s.withLessGreater l g).pc = s.pc := rfl
@[simp] theorem State.withLessGreater_flags (s : State) (l g : Bool) :
    (s.withLessGreater l g).flags = { s.flags with l := l, g := g } := rfl
@[simp] theorem State.withLessGreater_mem (s : State) (l g : Bool) :
    (s.withLessGreater l g).mem = s.mem := rfl
@[simp] theorem State.withLessGreater_cs (s : State) (l g : Bool) :
    (s.withLessGreater l g).cs = s.cs := rfl
@[simp] theorem State.withLessGreater_status (s : State) (l g : Bool) :
    (s.withLessGreater l g).status = s.status := rfl
@[simp] theorem State.withLessGreater_fault (s : State) (l g : Bool) :
    (s.withLessGreater l g).fault = s.fault := rfl
@[simp] theorem State.withLessGreater_out (s : State) (l g : Bool) :
    (s.withLessGreater l g).out = s.out := rfl
@[simp] theorem State.withLessGreater_cfg (s : State) (l g : Bool) :
    (s.withLessGreater l g).cfg = s.cfg := rfl

/-! ### The register file -/

@[simp] theorem Regs.get_set_same (x : Regs) (i : Fin 8) (v : Byte) : (x.set i v).get i = v := by
  fin_cases i <;> rfl

theorem Regs.get_set_ne (x : Regs) {i j : Fin 8} (v : Byte) (h : j ≠ i) : (x.set i v).get j = x.get j := by
  fin_cases i <;> fin_cases j <;> first | rfl | exact absurd rfl h

theorem Regs.get_set (x : Regs) (i j : Fin 8) (v : Byte) :
    (x.set i v).get j = if j = i then v else x.get j := by
  by_cases h : j = i
  · subst h; simp
  · simp [h, Regs.get_set_ne x v h]

@[simp] theorem Regs.set_set_same (x : Regs) (i : Fin 8) (v w : Byte) : (x.set i v).set i w = x.set i w := by
  fin_cases i <;> rfl

@[simp] theorem Regs.set_get_same (x : Regs) (i : Fin 8) : x.set i (x.get i) = x := by
  fin_cases i <;> rfl

theorem State.sp_eq (s : State) : s.sp = s.regs.get 7 := rfl

/-- Two register files that agree on every index are equal. -/
theorem Regs.ext_get {x y : Regs} (h : ∀ i, x.get i = y.get i) : x = y := by
  have h0 := h 0; have h1 := h 1; have h2 := h 2; have h3 := h 3
  have h4 := h 4; have h5 := h 5; have h6 := h 6; have h7 := h 7
  cases x; cases y
  simp only [Regs.get] at h0 h1 h2 h3 h4 h5 h6 h7
  subst h0 h1 h2 h3 h4 h5 h6 h7
  rfl

/-! ### Reset -/

@[simp] theorem State.resetWith_pc (c : Config) : (State.resetWith c).pc = 0 := rfl
@[simp] theorem State.resetWith_flags (c : Config) :
    (State.resetWith c).flags = { e := false, l := false, g := false } := rfl
@[simp] theorem State.resetWith_mem (c : Config) : (State.resetWith c).mem = [] := rfl
@[simp] theorem State.resetWith_cs (c : Config) : (State.resetWith c).cs = [] := rfl
@[simp] theorem State.resetWith_status (c : Config) : (State.resetWith c).status = .running := rfl
@[simp] theorem State.resetWith_fault (c : Config) : (State.resetWith c).fault = none := rfl
@[simp] theorem State.resetWith_out (c : Config) : (State.resetWith c).out = [] := rfl
@[simp] theorem State.resetWith_cfg (c : Config) : (State.resetWith c).cfg = c := rfl

end Sys2Proof.Machine
end

