-- ==== Sys2Proof/Laws/Ops.lean ====
section
/-! SUPPORT. One lemma per shared operation: what a register index, a check, a handler's end, the ALU and the fetch can answer. -/

namespace Sys2Proof.Machine

/-! ### Sequencing of checks -/

/-- A sequence that succeeds: its first part did, and so did the rest. -/
theorem bind_eq_ok {ε α β : Type} {x : Except ε α} {f : α → Except ε β} {b : β} :
    (x >>= f) = .ok b ↔ ∃ a, x = .ok a ∧ f a = .ok b := by
  cases x <;> simp [bind, Except.bind]

/-- A sequence that fails: its first part did, or it succeeded and the rest failed. -/
theorem bind_eq_error {ε α β : Type} {x : Except ε α} {f : α → Except ε β} {e : ε} :
    (x >>= f) = .error e ↔ x = .error e ∨ ∃ a, x = .ok a ∧ f a = .error e := by
  cases x <;> simp [bind, Except.bind]

@[simp] theorem ok_bind {ε α β : Type} (a : α) (f : α → Except ε β) : ((.ok a : Except ε α) >>= f) = f a := rfl

@[simp] theorem error_bind {ε α β : Type} (e : ε) (f : α → Except ε β) :
    ((.error e : Except ε α) >>= f) = .error e := rfl

theorem require_eq_ok {c : Bool} {k : ErrorKind} {u : Unit} : require c k = .ok u ↔ c = true := by
  cases c <;> simp [require]

theorem require_eq_error {c : Bool} {k e : ErrorKind} : require c k = .error e ↔ c = false ∧ k = e := by
  cases c <;> simp [require]

/-! ### Register indexes (rule R11) -/

theorem regIndex_eq_ok {b : Byte} {r : Fin 8} : regIndex b = .ok r ↔ b.toNat = r.val := by
  unfold regIndex
  split
  · constructor
    · intro h; injection h with h; rw [← h]
    · intro h; congr 1; exact Fin.ext h
  · rename_i hb
    constructor
    · intro h; cases h
    · intro h; have := r.isLt; omega

theorem regIndex_eq_error {b : Byte} {k : ErrorKind} :
    regIndex b = .error k ↔ 8 ≤ b.toNat ∧ k = .addressOutOfRange := by
  unfold regIndex
  split
  · rename_i hb
    constructor
    · intro h; cases h
    · intro h; omega
  · rename_i hb
    constructor
    · intro h; injection h with h; exact ⟨by omega, h.symm⟩
    · rintro ⟨_, rfl⟩; rfl

@[simp] theorem regIndex_regByte (r : Fin 8) : regIndex (regByte r) = .ok r :=
  regIndex_eq_ok.mpr (toNat_regByte r)

theorem regIndex_of_le {b : Byte} (h : 8 ≤ b.toNat) : regIndex b = .error .addressOutOfRange :=
  regIndex_eq_error.mpr ⟨h, rfl⟩

/-! ### The end of a handler (rule R112) -/

/-- A handler always ends in a next state: the one it made, or the fatal stop on the state it began with. -/
theorem conclude_eq_next {s t : State} {op : Byte} {r : Except ErrorKind State} :
    conclude s op r = .next t ↔ r = .ok t ∨ ∃ k, r = .error k ∧ t = s.fatalStop k (some op) := by
  cases r with
  | ok u => simp [conclude]
  | error k =>
    simp only [conclude, reduceCtorEq, false_or, Host.Outcome.next.injEq, Except.error.injEq]
    exact ⟨fun h => ⟨k, rfl, h.symm⟩, fun ⟨j, hj, ht⟩ => by rw [ht, hj]⟩

@[simp] theorem conclude_ok (s t : State) (op : Byte) : conclude s op (.ok t) = .next t := rfl

@[simp] theorem conclude_error (s : State) (op : Byte) (k : ErrorKind) :
    conclude s op (.error k) = .next (s.fatalStop k (some op)) := rfl

theorem conclude_total (s : State) (op : Byte) (r : Except ErrorKind State) : ∃ t, conclude s op r = .next t := by
  cases r <;> exact ⟨_, rfl⟩

/-! ### The ALU (rules R75, R76) -/

/-- The only error of the nine operations is MOD by zero. -/
theorem apply_eq_error {op : AluOp} {a b : Byte} {k : ErrorKind} :
    op.apply a b = .error k ↔ op = .mod ∧ b = 0 ∧ k = .divideByZero := by
  cases op <;> simp only [AluOp.apply, reduceCtorEq, false_and, true_and]
  rw [@eq_comm ErrorKind k]
  split
  · rename_i hb
    exact ⟨fun h => ⟨hb, Except.error.inj h⟩, fun h => by rw [h.2]⟩
  · rename_i hb
    exact ⟨(nomatch ·), fun h => absurd h.1 hb⟩

/-- What the shared two-operand handler can do (rule R87). -/
theorem aluBinary_cases {sel : AluOp} {op o1 o2 : Byte} {s t : State} (hx : aluBinary sel op o1 o2 s = .next t) :
    (∃ ra rb r, regIndex o1 = .ok ra ∧ regIndex o2 = .ok rb ∧
      sel.apply (s.regs.get ra) (s.regs.get rb) = .ok r ∧ t = (s.setReg ra r).advance 2) ∨
    ∃ k, t = s.fatalStop k (some op) ∧
      (regIndex o1 = .error k ∨ regIndex o2 = .error k ∨
        ∃ ra rb, regIndex o1 = .ok ra ∧ regIndex o2 = .ok rb ∧
          sel.apply (s.regs.get ra) (s.regs.get rb) = .error k) := by
  rcases conclude_eq_next.mp hx with h | ⟨k, h, ht⟩
  · simp only [bind_eq_ok, alu, Except.ok.injEq] at h
    obtain ⟨ra, h1, rb, h2, r, h3, h4⟩ := h
    exact .inl ⟨ra, rb, r, h1, h2, h3, h4.symm⟩
  · refine .inr ⟨k, ht, ?_⟩
    simp only [bind_eq_error, alu] at h
    rcases h with h | ⟨ra, h1, h | ⟨rb, h2, h | ⟨r, _, h⟩⟩⟩
    · exact .inl h
    · exact .inr (.inl h)
    · exact .inr (.inr ⟨ra, rb, h1, h2, h⟩)
    · cases h

/-- What the shared branch handler can do (rule R102). -/
theorem branchIf_cases {taken : Bool} {op o1 : Byte} {s t : State} (hx : branchIf taken op o1 s = .next t) :
    (∃ ra, regIndex o1 = .ok ra ∧
      t = if taken then s.redirect (zext9 (s.regs.get ra)) else s.advance 1) ∨
    ∃ k, t = s.fatalStop k (some op) ∧ regIndex o1 = .error k := by
  rcases conclude_eq_next.mp hx with h | ⟨k, h, ht⟩
  · simp only [bind_eq_ok, Except.ok.injEq] at h
    obtain ⟨ra, h1, h2⟩ := h
    exact .inl ⟨ra, h1, h2.symm⟩
  · refine .inr ⟨k, ht, ?_⟩
    simp only [bind_eq_error] at h
    rcases h with h | ⟨ra, _, h⟩
    · exact h
    · cases h

/-! ### The bytes of the program (rules R36, R62 to R64) -/

theorem zext9_toNat (v : Byte) : (zext9 v).toNat = v.toNat := by
  have := v.isLt
  simp [zext9]
  omega

theorem codeBytes_succ (m : Memory) (n : Nat) {a : Nat} (h : a ≤ 255) :
    codeBytes m (n + 1) a = Memory.read m a :: codeBytes m n (a + 1) := by
  rw [codeBytes, memRead_nat m h]

theorem codeBytes_out (m : Memory) (n : Nat) {a : Nat} (h : 255 < a) : codeBytes m n a = [] := by
  cases n with
  | zero => rfl
  | succ n => rw [codeBytes, memRead_nat_out m h]

/-- Bytes that stand in memory are the head of what the fetch reads. -/
theorem codeBytes_of_read {m : Memory} {a n : Nat} (bs : List Byte) (hn : bs.length ≤ n)
    (ha : a + bs.length ≤ 256) (hr : ∀ k b, bs[k]? = some b → Memory.read m (a + k) = b) :
    ∃ rest, codeBytes m n a = bs ++ rest := by
  induction bs generalizing a n with
  | nil => exact ⟨_, rfl⟩
  | cons b bs ih =>
    cases n with
    | zero => simp at hn
    | succ n =>
      simp only [List.length_cons] at hn ha
      obtain ⟨rest, hrest⟩ := ih (a := a + 1) (n := n) (by omega) (by omega) fun k c hk => by
        have := hr (k + 1) c (by simpa using hk)
        rwa [Nat.add_assoc, Nat.add_comm 1 k]
      have h0 := hr 0 b (by simp)
      rw [Nat.add_zero] at h0
      exact ⟨rest, by rw [codeBytes_succ m n (by omega), hrest, h0, List.cons_append]⟩

/-- A fetch beyond memory (rule R63). -/
theorem fetch_out {s : State} (h : 255 < s.pc.toNat) : fetch s = .error (.addressOutOfRange, none) := by
  unfold fetch
  rw [codeBytes_out _ _ h]
  rfl

/-- What a fetch of an opcode inside memory answers. -/
theorem fetch_in {s : State} (h : s.pc.toNat ≤ 255) :
    fetch s =
      match decodeOpcode (Memory.read s.mem s.pc.toNat) with
      | none => .error (.unknownOpcode, some (Memory.read s.mem s.pc.toNat))
      | some row =>
        match row.takeOperands (codeBytes s.mem 2 (s.pc.toNat + 1)) with
        | none => .error (.addressOutOfRange, some (Memory.read s.mem s.pc.toNat))
        | some (i, _) => .ok i := by
  unfold fetch
  rw [codeBytes_succ _ _ h, decode_cons]
  cases decodeOpcode (Memory.read s.mem s.pc.toNat) with
  | none => rfl
  | some row =>
    dsimp only
    cases row.takeOperands (codeBytes s.mem 2 (s.pc.toNat + 1)) with
    | none => rfl
    | some r => rfl

/-- At most `n` bytes are read, and none from above address 255. -/
theorem codeBytes_length (m : Memory) (n a : Nat) : (codeBytes m n a).length = min n (256 - a) := by
  induction n generalizing a with
  | zero => simp [codeBytes]
  | succ n ih =>
    by_cases h : a ≤ 255
    · rw [codeBytes_succ m n h, List.length_cons, ih]; omega
    · rw [codeBytes_out m _ (by omega)]; simp; omega

/-- An instruction that was fetched lies whole inside memory: its opcode byte is at `pc`, and its last byte is at an
address of at most 255 (rules R63, R64). -/
theorem fetch_eq_ok {s : State} {i : Instr} (h : fetch s = .ok i) :
    s.pc.toNat + (encode i).length ≤ 256 ∧ Memory.read s.mem s.pc.toNat = i.opcode := by
  by_cases hpc : s.pc.toNat ≤ 255
  · rw [fetch_in hpc] at h
    split at h
    · cases h
    · rename_i row hrow
      split at h
      · cases h
      · rename_i j rest ht
        injection h with h
        subst h
        obtain ⟨ho, hb⟩ := row_of_takeOperands (mem_opcodeTable_of_decodeOpcode hrow) ht
        have hl := codeBytes_length s.mem 2 (s.pc.toNat + 1)
        rw [hb, List.length_append] at hl
        refine ⟨?_, ho.symm⟩
        rw [encode, List.length_cons]
        omega
  · rw [fetch_out (by omega)] at h
    cases h

end Sys2Proof.Machine
end

