-- ==== Sys2Proof/Laws/Exec.lean ====
section
/-! SUPPORT. Said once, for every instruction: what `exec` can answer. `exec_cases` is the inversion lemma that frames, invariants
and error statements cite instead of unfolding the meanings. -/

namespace Sys2Proof.Machine

/-- The completion of a two-operand ALU instruction (rule R87). -/
def AluCompletes (sel : AluOp) (o1 o2 : Byte) (s t : State) : Prop :=
  ∃ ra rb r, regIndex o1 = .ok ra ∧ regIndex o2 = .ok rb ∧
    sel.apply (s.regs.get ra) (s.regs.get rb) = .ok r ∧ t = (s.setReg ra r).advance 2

/-- The completion of a branch (rule R102). -/
def BranchCompletes (taken : Bool) (o1 : Byte) (s t : State) : Prop :=
  ∃ ra, regIndex o1 = .ok ra ∧ t = if taken then s.redirect (zext9 (s.regs.get ra)) else s.advance 1

/-- The state an instruction makes when it raises nothing. -/
def Completes (i : Instr) (s t : State) : Prop :=
  match i with
  | .hlt => t = s.halt
  | .ret => ∃ top below, s.cs = top :: below ∧ t = (s.setCalls below).redirect top
  | .push o1 => ∃ ra, regIndex o1 = .ok ra ∧ (s.cfg.stackFloor.toNat : Int) ≤ (s.sp.toNat : Int) - 1 ∧
      t = ((s.setMem (Memory.write s.mem s.sp.toNat (s.regs.get ra))).setReg spIndex (s.sp - 1)).advance 1
  | .pop o1 => ∃ ra, regIndex o1 = .ok ra ∧ (s.sp.toNat : Int) + 1 ≤ (s.cfg.spInit.toNat : Int) ∧
      t = ((s.setReg spIndex (s.sp + 1)).setReg ra (Memory.read s.mem (s.sp.toNat + 1))).advance 1
  | .prn o1 => ∃ ra, regIndex o1 = .ok ra ∧ t = (s.emit (s.regs.get ra)).advance 1
  | .call o1 => ∃ ra, regIndex o1 = .ok ra ∧ s.callStackFull = false ∧
      t = (s.pushCall (s.pc + 2)).redirect (zext9 (s.regs.get ra))
  | .jmp o1 => ∃ ra, regIndex o1 = .ok ra ∧ t = s.redirect (zext9 (s.regs.get ra))
  | .jeq o1 => BranchCompletes s.flags.e o1 s t
  | .jne o1 => BranchCompletes (!s.flags.e) o1 s t
  | .not o1 => ∃ ra, regIndex o1 = .ok ra ∧ t = (s.setReg ra (~~~ s.regs.get ra)).advance 1
  | .ldi o1 o2 => ∃ ra, regIndex o1 = .ok ra ∧ t = (s.setReg ra o2).advance 2
  | .st o1 o2 => ∃ ra rb, regIndex o1 = .ok ra ∧ regIndex o2 = .ok rb ∧
      t = (s.setMem (Memory.write s.mem (s.regs.get ra).toNat (s.regs.get rb))).advance 2
  | .cmp o1 o2 => ∃ ra rb, regIndex o1 = .ok ra ∧ regIndex o2 = .ok rb ∧
      t = (s.setFlags (Flags.compare (s.regs.get ra) (s.regs.get rb))).advance 2
  | .add o1 o2 => AluCompletes .add o1 o2 s t
  | .mul o1 o2 => AluCompletes .mul o1 o2 s t
  | .mod o1 o2 => AluCompletes .mod o1 o2 s t
  | .and o1 o2 => AluCompletes .and o1 o2 s t
  | .or o1 o2 => AluCompletes .or o1 o2 s t
  | .xor o1 o2 => AluCompletes .xor o1 o2 s t
  | .shl o1 o2 => AluCompletes .shl o1 o2 s t
  | .shr o1 o2 => AluCompletes .shr o1 o2 s t

/-- The operation-specific errors, the register operands being legal (the last column of rule R111's table). -/
def OperationRaises (i : Instr) (s : State) (k : ErrorKind) : Prop :=
  match i with
  | .mod _ o2 => k = .divideByZero ∧ ∃ rb, regIndex o2 = .ok rb ∧ s.regs.get rb = 0
  | .push _ => k = .stackOverflow ∧ (s.sp.toNat : Int) - 1 < (s.cfg.stackFloor.toNat : Int)
  | .pop _ => k = .stackUnderflow ∧ (s.cfg.spInit.toNat : Int) < (s.sp.toNat : Int) + 1
  | .call _ => k = .stackOverflow ∧ s.callStackFull = true
  | .ret => k = .callStackUnderflow ∧ s.cs = []
  | .hlt | .prn _ | .jmp _ | .jeq _ | .jne _ | .not _ | .ldi _ _ | .st _ _ | .cmp _ _ | .add _ _ | .mul _ _
  | .and _ _ | .or _ _ | .xor _ _ | .shl _ _ | .shr _ _ => False

/-- Why an instruction raises `k`: an illegal register operand, or its own error. -/
def Raises (i : Instr) (s : State) (k : ErrorKind) : Prop :=
  (k = .addressOutOfRange ∧ ¬ i.WellFormed) ∨ (i.WellFormed ∧ OperationRaises i s k)

theorem not_wellFormed_of_error {i : Instr} {o : Byte} {k : ErrorKind} (ho : o ∈ i.registerOperands)
    (h : regIndex o = .error k) : k = .addressOutOfRange ∧ ¬ i.WellFormed := by
  obtain ⟨h8, rfl⟩ := regIndex_eq_error.mp h
  exact ⟨rfl, fun hw => by have := hw o ho; omega⟩

theorem wellFormed_of_regIndex₁ {i : Instr} {o1 : Byte} {ra : Fin 8} (hr : i.registerOperands = [o1])
    (h : regIndex o1 = .ok ra) : i.WellFormed := by
  intro o ho
  rw [hr, List.mem_singleton] at ho
  rw [ho, regIndex_eq_ok.mp h]
  exact ra.isLt

theorem wellFormed_of_regIndex₂ {i : Instr} {o1 o2 : Byte} {ra rb : Fin 8} (hr : i.registerOperands = [o1, o2])
    (h1 : regIndex o1 = .ok ra) (h2 : regIndex o2 = .ok rb) : i.WellFormed := by
  intro o ho
  rw [hr, List.mem_pair] at ho
  rcases ho with rfl | rfl
  · rw [regIndex_eq_ok.mp h1]; exact ra.isLt
  · rw [regIndex_eq_ok.mp h2]; exact rb.isLt

theorem aluBinary_exec_cases {i : Instr} {sel : AluOp} {op o1 o2 : Byte} {s t : State}
    (hr : i.registerOperands = [o1, o2]) (h : aluBinary sel op o1 o2 s = .next t) :
    AluCompletes sel o1 o2 s t ∨ ∃ k, t = s.fatalStop k (some op) ∧
      ((k = .addressOutOfRange ∧ ¬ i.WellFormed) ∨
        (i.WellFormed ∧ sel = .mod ∧ k = .divideByZero ∧ ∃ rb, regIndex o2 = .ok rb ∧ s.regs.get rb = 0)) := by
  rcases aluBinary_cases h with h | ⟨k, ht, h | h | ⟨ra, rb, h1, h2, h⟩⟩
  · exact .inl h
  · exact .inr ⟨k, ht, .inl (not_wellFormed_of_error (by simp [hr]) h)⟩
  · exact .inr ⟨k, ht, .inl (not_wellFormed_of_error (by simp [hr]) h)⟩
  · obtain ⟨hs, hb, hk⟩ := apply_eq_error.mp h
    exact .inr ⟨k, ht, .inr ⟨wellFormed_of_regIndex₂ hr h1 h2, hs, hk, rb, h2, hb⟩⟩

theorem branchIf_exec_cases {i : Instr} {taken : Bool} {op o1 : Byte} {s t : State}
    (hr : i.registerOperands = [o1]) (h : branchIf taken op o1 s = .next t) :
    BranchCompletes taken o1 s t ∨ ∃ k, t = s.fatalStop k (some op) ∧ k = .addressOutOfRange ∧ ¬ i.WellFormed := by
  rcases branchIf_cases h with h | ⟨k, ht, h⟩
  · exact .inl h
  · exact .inr ⟨k, ht, not_wellFormed_of_error (by simp [hr]) h⟩

/-- EVERYTHING `exec` CAN ANSWER: the completed instruction, or the fatal stop of rule R112 with the kind and the
cause of rules R110 and R111. -/
theorem exec_cases {i : Instr} {s t : State} (h : exec i s = .next t) :
    Completes i s t ∨ ∃ k, t = s.fatalStop k (some i.opcode) ∧ Raises i s k := by
  have alu : ∀ {sel : AluOp} {op o1 o2 : Byte}, sel ≠ .mod → i.registerOperands = [o1, o2] →
      i.opcode = op → aluBinary sel op o1 o2 s = .next t →
      AluCompletes sel o1 o2 s t ∨ ∃ k, t = s.fatalStop k (some i.opcode) ∧ Raises i s k := by
    intro sel op o1 o2 hs hr ho h
    subst ho
    rcases aluBinary_exec_cases hr h with h | ⟨k, ht, h | h⟩
    · exact .inl h
    · exact .inr ⟨k, ht, .inl h⟩
    · exact absurd h.2.1 hs
  cases i with
  | hlt =>
    injection h with h
    exact .inl h.symm
  | ret =>
    rcases conclude_eq_next.mp h with h | ⟨k, h, ht⟩
    · split at h
      · cases h
      · rename_i top below hcs
        injection h with h
        exact .inl ⟨top, below, hcs, h.symm⟩
    · split at h
      · rename_i hcs
        injection h with h
        exact .inr ⟨k, ht, .inr ⟨(fun _ ho => nomatch ho), h.symm, hcs⟩⟩
      · cases h
  | push o1 =>
    rcases conclude_eq_next.mp h with h | ⟨k, h, ht⟩
    · simp only [bind_eq_ok, require_eq_ok, memWrite_byte, Except.ok.injEq, decide_eq_true_eq] at h
      obtain ⟨ra, h1, _, h2, _, rfl, h3⟩ := h
      exact .inl ⟨ra, h1, h2, h3.symm⟩
    · simp only [bind_eq_error, require_eq_error, require_eq_ok, memWrite_byte, decide_eq_false_iff_not] at h
      rcases h with h | ⟨ra, h1, ⟨h2, h3⟩ | ⟨_, _, h | ⟨_, _, h⟩⟩⟩
      · exact .inr ⟨k, ht, .inl (not_wellFormed_of_error (by simp [Instr.registerOperands]) h)⟩
      · exact .inr ⟨k, ht, .inr ⟨wellFormed_of_regIndex₁ rfl h1, h3.symm, by omega⟩⟩
      · cases h
      · cases h
  | pop o1 =>
    rcases conclude_eq_next.mp h with h | ⟨k, h, ht⟩
    · simp only [bind_eq_ok, require_eq_ok, Except.ok.injEq, decide_eq_true_eq] at h
      obtain ⟨ra, h1, _, h2, v, hv, h3⟩ := h
      obtain ⟨_, _, rfl⟩ := memRead_ok hv
      exact .inl ⟨ra, h1, h2, by rw [← h3]; congr 2⟩
    · simp only [bind_eq_error, require_eq_error, require_eq_ok, decide_eq_true_eq, decide_eq_false_iff_not] at h
      rcases h with h | ⟨ra, h1, ⟨h2, h3⟩ | ⟨_, h2, h | ⟨_, _, h⟩⟩⟩
      · exact .inr ⟨k, ht, .inl (not_wellFormed_of_error (by simp [Instr.registerOperands]) h)⟩
      · exact .inr ⟨k, ht, .inr ⟨wellFormed_of_regIndex₁ rfl h1, h3.symm, by omega⟩⟩
      · have := s.cfg.spInit.isLt
        unfold memRead at h
        rw [if_pos (by omega)] at h
        cases h
      · cases h
  | prn o1 =>
    rcases conclude_eq_next.mp h with h | ⟨k, h, ht⟩
    · simp only [bind_eq_ok, Except.ok.injEq] at h
      obtain ⟨ra, h1, h2⟩ := h
      exact .inl ⟨ra, h1, h2.symm⟩
    · simp only [bind_eq_error, reduceCtorEq, and_false, exists_false, or_false] at h
      exact .inr ⟨k, ht, .inl (not_wellFormed_of_error (by simp [Instr.registerOperands]) h)⟩
  | call o1 =>
    rcases conclude_eq_next.mp h with h | ⟨k, h, ht⟩
    · simp only [bind_eq_ok, require_eq_ok, Except.ok.injEq, Bool.not_eq_true'] at h
      obtain ⟨ra, h1, _, h2, h3⟩ := h
      exact .inl ⟨ra, h1, h2, h3.symm⟩
    · simp only [bind_eq_error, require_eq_error, reduceCtorEq, and_false, exists_false, or_false,
        Bool.not_eq_false'] at h
      rcases h with h | ⟨ra, h1, h2, h3⟩
      · exact .inr ⟨k, ht, .inl (not_wellFormed_of_error (by simp [Instr.registerOperands]) h)⟩
      · exact .inr ⟨k, ht, .inr ⟨wellFormed_of_regIndex₁ rfl h1, h3.symm, h2⟩⟩
  | jmp o1 =>
    rcases conclude_eq_next.mp h with h | ⟨k, h, ht⟩
    · simp only [bind_eq_ok, Except.ok.injEq] at h
      obtain ⟨ra, h1, h2⟩ := h
      exact .inl ⟨ra, h1, h2.symm⟩
    · simp only [bind_eq_error, reduceCtorEq, and_false, exists_false, or_false] at h
      exact .inr ⟨k, ht, .inl (not_wellFormed_of_error (by simp [Instr.registerOperands]) h)⟩
  | jeq o1 =>
    rcases branchIf_exec_cases (i := .jeq o1) rfl h with h | ⟨k, ht, h⟩
    · exact .inl h
    · exact .inr ⟨k, ht, .inl h⟩
  | jne o1 =>
    rcases branchIf_exec_cases (i := .jne o1) rfl h with h | ⟨k, ht, h⟩
    · exact .inl h
    · exact .inr ⟨k, ht, .inl h⟩
  | not o1 =>
    rcases conclude_eq_next.mp h with h | ⟨k, h, ht⟩
    · simp only [bind_eq_ok, Machine.alu, AluOp.apply, Except.ok.injEq] at h
      obtain ⟨ra, h1, r, rfl, h2⟩ := h
      exact .inl ⟨ra, h1, h2.symm⟩
    · simp only [bind_eq_error, Machine.alu, AluOp.apply, reduceCtorEq, and_false, exists_false, or_false] at h
      exact .inr ⟨k, ht, .inl (not_wellFormed_of_error (by simp [Instr.registerOperands]) h)⟩
  | ldi o1 o2 =>
    rcases conclude_eq_next.mp h with h | ⟨k, h, ht⟩
    · simp only [bind_eq_ok, Except.ok.injEq] at h
      obtain ⟨ra, h1, h2⟩ := h
      exact .inl ⟨ra, h1, h2.symm⟩
    · simp only [bind_eq_error, reduceCtorEq, and_false, exists_false, or_false] at h
      exact .inr ⟨k, ht, .inl (not_wellFormed_of_error (by simp [Instr.registerOperands]) h)⟩
  | st o1 o2 =>
    rcases conclude_eq_next.mp h with h | ⟨k, h, ht⟩
    · simp only [bind_eq_ok, memWrite_byte, Except.ok.injEq] at h
      obtain ⟨ra, h1, rb, h2, _, rfl, h3⟩ := h
      exact .inl ⟨ra, rb, h1, h2, h3.symm⟩
    · simp only [bind_eq_error, memWrite_byte, reduceCtorEq, and_false, exists_false, or_false] at h
      rcases h with h | ⟨_, _, h⟩
      · exact .inr ⟨k, ht, .inl (not_wellFormed_of_error (by simp [Instr.registerOperands]) h)⟩
      · exact .inr ⟨k, ht, .inl (not_wellFormed_of_error (by simp [Instr.registerOperands]) h)⟩
  | cmp o1 o2 =>
    rcases conclude_eq_next.mp h with h | ⟨k, h, ht⟩
    · simp only [bind_eq_ok, Except.ok.injEq] at h
      obtain ⟨ra, h1, rb, h2, h3⟩ := h
      exact .inl ⟨ra, rb, h1, h2, h3.symm⟩
    · simp only [bind_eq_error, reduceCtorEq, and_false, exists_false, or_false] at h
      rcases h with h | ⟨_, _, h⟩
      · exact .inr ⟨k, ht, .inl (not_wellFormed_of_error (by simp [Instr.registerOperands]) h)⟩
      · exact .inr ⟨k, ht, .inl (not_wellFormed_of_error (by simp [Instr.registerOperands]) h)⟩
  | mod o1 o2 =>
    rcases aluBinary_exec_cases (i := .mod o1 o2) rfl h with h | ⟨k, ht, h | h⟩
    · exact .inl h
    · exact .inr ⟨k, ht, .inl h⟩
    · exact .inr ⟨k, ht, .inr ⟨h.1, h.2.2⟩⟩
  | add o1 o2 => exact alu (by decide) rfl rfl h
  | mul o1 o2 => exact alu (by decide) rfl rfl h
  | and o1 o2 => exact alu (by decide) rfl rfl h
  | or o1 o2 => exact alu (by decide) rfl rfl h
  | xor o1 o2 => exact alu (by decide) rfl rfl h
  | shl o1 o2 => exact alu (by decide) rfl rfl h
  | shr o1 o2 => exact alu (by decide) rfl rfl h

/-- A completed instruction writes no fault record and no configuration, and no status but HLT's. -/
theorem completes_status {i : Instr} {s t : State} (h : Completes i s t) :
    t.fault = s.fault ∧ t.cfg = s.cfg ∧ ((i = .hlt ∧ t.status = .halted) ∨ (i ≠ .hlt ∧ t.status = s.status)) := by
  cases i <;> simp only [Completes, AluCompletes, BranchCompletes] at h
  case hlt => subst h; simp
  case ret => obtain ⟨_, _, _, rfl⟩ := h; simp
  case push => obtain ⟨_, _, _, rfl⟩ := h; simp
  case pop => obtain ⟨_, _, _, rfl⟩ := h; simp
  case call => obtain ⟨_, _, _, rfl⟩ := h; simp
  case jeq => obtain ⟨_, _, rfl⟩ := h; split <;> simp
  case jne => obtain ⟨_, _, rfl⟩ := h; split <;> simp
  case prn => obtain ⟨_, _, rfl⟩ := h; simp
  case jmp => obtain ⟨_, _, rfl⟩ := h; simp
  case not => obtain ⟨_, _, rfl⟩ := h; simp
  case ldi => obtain ⟨_, _, rfl⟩ := h; simp
  case st => obtain ⟨_, _, _, _, rfl⟩ := h; simp
  case cmp => obtain ⟨_, _, _, _, rfl⟩ := h; simp
  all_goals (obtain ⟨_, _, _, _, _, _, rfl⟩ := h; simp)

end Sys2Proof.Machine
end

