-- ==== Sys2Proof/Laws/PerInstr.lean ====
section
/-! SUPPORT. The family of the statement "for every instruction": its encoding begins with an opcode byte that selects a row whose
operand count is the number of the operand bytes that follow (rules R45, R50). -/

namespace Sys2Proof.Laws.OperandCount

/-- The opcode byte alone tells the length of the encoding. -/
def Statement (i : Instr) : Prop :=
  ∃ row, decodeOpcode i.opcode = some row ∧ (encode i).length = 1 + row.operandCount

theorem hlt : Statement .hlt := ⟨_, rfl, rfl⟩
theorem ret : Statement .ret := ⟨_, rfl, rfl⟩
theorem push (o1 : Byte) : Statement (.push o1) := ⟨_, rfl, rfl⟩
theorem pop (o1 : Byte) : Statement (.pop o1) := ⟨_, rfl, rfl⟩
theorem prn (o1 : Byte) : Statement (.prn o1) := ⟨_, rfl, rfl⟩
theorem call (o1 : Byte) : Statement (.call o1) := ⟨_, rfl, rfl⟩
theorem jmp (o1 : Byte) : Statement (.jmp o1) := ⟨_, rfl, rfl⟩
theorem jeq (o1 : Byte) : Statement (.jeq o1) := ⟨_, rfl, rfl⟩
theorem jne (o1 : Byte) : Statement (.jne o1) := ⟨_, rfl, rfl⟩
theorem not (o1 : Byte) : Statement (.not o1) := ⟨_, rfl, rfl⟩
theorem ldi (o1 o2 : Byte) : Statement (.ldi o1 o2) := ⟨_, rfl, rfl⟩
theorem st (o1 o2 : Byte) : Statement (.st o1 o2) := ⟨_, rfl, rfl⟩
theorem add (o1 o2 : Byte) : Statement (.add o1 o2) := ⟨_, rfl, rfl⟩
theorem mul (o1 o2 : Byte) : Statement (.mul o1 o2) := ⟨_, rfl, rfl⟩
theorem mod (o1 o2 : Byte) : Statement (.mod o1 o2) := ⟨_, rfl, rfl⟩
theorem cmp (o1 o2 : Byte) : Statement (.cmp o1 o2) := ⟨_, rfl, rfl⟩
theorem and (o1 o2 : Byte) : Statement (.and o1 o2) := ⟨_, rfl, rfl⟩
theorem or (o1 o2 : Byte) : Statement (.or o1 o2) := ⟨_, rfl, rfl⟩
theorem xor (o1 o2 : Byte) : Statement (.xor o1 o2) := ⟨_, rfl, rfl⟩
theorem shl (o1 o2 : Byte) : Statement (.shl o1 o2) := ⟨_, rfl, rfl⟩
theorem shr (o1 o2 : Byte) : Statement (.shr o1 o2) := ⟨_, rfl, rfl⟩

end Sys2Proof.Laws.OperandCount
end

