-- ==== Sys2Proof/Laws/Step.lean ====
section
/-! SUPPORT. Said once: what `step` can answer. -/

namespace Sys2Proof.Machine

/-- A running core: the decoded instruction, or the fatal stop of the fetch. -/
theorem step_running {s : State} (h : s.status = .running) :
    step s =
      match fetch s with
      | .ok i => exec i s
      | .error (k, op) => .next (s.fatalStop k op) := by
  cases s
  cases h
  rfl

/-- A core that is not running stays as it is (rule R68). -/
theorem step_terminal {s : State} (h : s.status ≠ .running) : step s = .next s := by
  unfold step
  split
  · rfl
  · rfl
  · rename_i hr; exact absurd hr h

/-- The errors of the fetch: the address of the opcode or of an operand is beyond memory, or the opcode is unknown
(rules R61, R63, R64). -/
theorem fetch_eq_error {s : State} {k : ErrorKind} {op : Option Byte} (h : fetch s = .error (k, op)) :
    (255 < s.pc.toNat ∧ k = .addressOutOfRange ∧ op = none) ∨
    (s.pc.toNat ≤ 255 ∧ op = some (Memory.read s.mem s.pc.toNat) ∧
      ((k = .unknownOpcode ∧ decodeOpcode (Memory.read s.mem s.pc.toNat) = none) ∨
        (k = .addressOutOfRange ∧ ∃ row, decodeOpcode (Memory.read s.mem s.pc.toNat) = some row))) := by
  by_cases hpc : s.pc.toNat ≤ 255
  · rw [fetch_in hpc] at h
    split at h
    · rename_i hd
      injection h with h
      injection h with h1 h2
      exact .inr ⟨hpc, h2.symm, .inl ⟨h1.symm, hd⟩⟩
    · rename_i row hd
      split at h
      · injection h with h
        injection h with h1 h2
        exact .inr ⟨hpc, h2.symm, .inr ⟨h1.symm, row, hd⟩⟩
      · cases h
  · rw [fetch_out (by omega)] at h
    injection h with h
    injection h with h1 h2
    exact .inl ⟨by omega, h1.symm, h2.symm⟩

/-- EVERYTHING A STEP CAN DO. -/
theorem step_cases {s t : State} (h : step s = .next t) :
    (s.status ≠ .running ∧ t = s) ∨
    (s.status = .running ∧ ∃ i, fetch s = .ok i ∧ exec i s = .next t) ∨
    (s.status = .running ∧ ∃ k op, fetch s = .error (k, op) ∧ t = s.fatalStop k op) := by
  by_cases hr : s.status = .running
  · rw [step_running hr] at h
    cases hf : fetch s with
    | ok i =>
      rw [hf] at h
      exact .inr (.inl ⟨hr, i, rfl, h⟩)
    | error e =>
      obtain ⟨k, op⟩ := e
      rw [hf] at h
      injection h with h
      exact .inr (.inr ⟨hr, k, op, rfl, h.symm⟩)
  · rw [step_terminal hr] at h
    injection h with h
    exact .inl ⟨hr, h.symm⟩

theorem run_zero (s : State) : core.run 0 s = .next s := rfl

theorem run_succ (k : Nat) (s : State) :
    core.run (k + 1) s =
      match step s with
      | .next t => core.run k t
      | .fault r => .fault r
      | .refused r => .refused r := by
  refine (Host.Core.run.eq_2 core s k).trans ?_
  generalize hx : step s = x
  have hx' : core.step s = x := hx
  rw [hx']
  cases x <;> rfl

/-- The induction behind every statement about runs: what holds at the start and is kept by each step holds at the
end. -/
theorem run_induct {P : State → Prop} (hs : ∀ s t, P s → step s = .next t → P t) {k : Nat} {s t : State}
    (h0 : P s) (h : core.run k s = .next t) : P t := by
  induction k generalizing s with
  | zero =>
    injection h with h
    exact h ▸ h0
  | succ k ih =>
    rw [run_succ] at h
    split at h
    · rename_i s' hs'
      exact ih (hs s s' h0 hs') h
    · cases h
    · cases h

end Sys2Proof.Machine
end

