-- ==== Sys2Proof/Tests/Slice0.lean ====
section
/-! SUPPORT. Tests: words decoded, the smoke test of WellFormed, one or two single steps per instruction (expected values from
spec/95_test_vectors.md, whose row numbers stand in the docstrings; the words are written out from rule R48), and for every
obligation with hypotheses a witness that meets them. -/

namespace Sys2Proof.Tests

open Sys2Proof Sys2Proof.Machine

/-! ## Decoding -/

/-- F0 and F1 rows of rule R48. -/
theorem test_decode_short_words :
    decodeTableWord 8 0x01 = some .hlt ∧ decodeTableWord 8 0x11 = some .ret ∧
    decodeTableWord 16 0x0345 = some (.push 3) ∧ decodeTableWord 16 0x0746 = some (.pop 7) ∧
    decodeTableWord 16 0x0047 = some (.prn 0) ∧ decodeTableWord 16 0x0150 = some (.call 1) ∧
    decodeTableWord 16 0x0054 = some (.jmp 0) ∧ decodeTableWord 16 0x0255 = some (.jeq 2) ∧
    decodeTableWord 16 0x0256 = some (.jne 2) ∧ decodeTableWord 16 0x0069 = some (.not 0) := by decide

/-- F2 rows of rule R48: the first operand byte is the middle byte of the word. -/
theorem test_decode_long_words :
    decodeTableWord 24 0x080082 = some (.ldi 0 8) ∧ decodeTableWord 24 0x010084 = some (.st 0 1) ∧
    decodeTableWord 24 0x0100A0 = some (.add 0 1) ∧ decodeTableWord 24 0x0100A2 = some (.mul 0 1) ∧
    decodeTableWord 24 0x0100A4 = some (.mod 0 1) ∧ decodeTableWord 24 0x0100A7 = some (.cmp 0 1) ∧
    decodeTableWord 24 0x0100A8 = some (.and 0 1) ∧ decodeTableWord 24 0x0100AA = some (.or 0 1) ∧
    decodeTableWord 24 0x0100AB = some (.xor 0 1) ∧ decodeTableWord 24 0x0100AC = some (.shl 0 1) ∧
    decodeTableWord 24 0x0100AD = some (.shr 0 1) := by decide

/-- E1 to E4 and E8: bytes that differ from an opcode by one bit, or are opcodes of another chip, are unknown. -/
theorem test_decode_unknown_bytes :
    [0x00, 0x02, 0x81, 0xA1, 0x83, 0xA3].map (decodeTableWord 8) = List.replicate 6 none := by decide

/-- A missing operand byte is not read as 0: the word is refused by name. -/
theorem test_decode_operand_missing : decode [0x82, 0x00] = .error (.operandMissing 0x82) := rfl

/-- B5: NOT is two bytes long; the third byte stays. -/
theorem test_decode_not_leaves_third_byte : decode [0x69, 0x00, 0x01] = .ok (.not 0, [0x01]) := rfl

/-- The encoder on P1's bytes. -/
theorem test_encode_print8 :
    encode (.ldi 0 8) ++ encode (.prn 0) ++ encode .hlt = [0x82, 0x00, 0x08, 0x47, 0x00, 0x01] := by decide

/-! ## WellFormed -/

/-- A register number of 8 in the only operand is refused. -/
theorem test_wellFormed_refuses_only_operand : ¬ (Instr.push 8).WellFormed := by decide

/-- A register number of 8 in the first of two operands is refused. -/
theorem test_wellFormed_refuses_first_operand : ¬ (Instr.add 8 0).WellFormed ∧ ¬ (Instr.ldi 8 0).WellFormed := by decide

/-- A register number of 255 in the second of two operands is refused. -/
theorem test_wellFormed_refuses_second_operand : ¬ (Instr.add 0 255).WellFormed := by decide

/-- LDI's second operand is no register number; register 7 is one. -/
theorem test_wellFormed_accepts : (Instr.ldi 7 255).WellFormed ∧ (Instr.add 7 7).WellFormed := by decide

/-! ## Single steps: the bytes stand at pc = 0x10, as in the vectors -/

/-- Reset values but for R0, R1 and R7, with the bytes `bs` at pc = 0x10. -/
def start (x0 x1 x7 : Byte) (bs : List Byte) : State :=
  { State.reset with
    pc := 0x10
    regs := { State.reset.regs with r0 := x0, r1 := x1, r7 := x7 }
    mem := Memory.load [] 0x10 bs }

/-- The state after a step, where there is one. -/
def after (s : State) : Option State :=
  match step s with
  | .next t => some t
  | .fault _ => none
  | .refused _ => none

/-- The fault record after a step, with pc. -/
def stop (s : State) : Option (Option FaultRecord × CodeAddr) :=
  (after s).map fun t => (t.fault, t.pc)

/-- R0 and pc after a step. -/
def r0pc (s : State) : Option (Byte × CodeAddr) :=
  (after s).map fun t => (t.regs.r0, t.pc)

/-- A1. -/
theorem test_add_wraps : r0pc (start 200 100 0xF4 [0xA0, 0, 1]) = some (44, 0x13) := by decide
/-- A7. -/
theorem test_add_illegal_register : stop (start 1 1 0xF4 [0xA0, 0, 8]) =
    some (some { kind := .addressOutOfRange, pc := 0x10, opcode := some 0xA0 }, 0x10) := by decide
/-- A10. -/
theorem test_mul_wraps : r0pc (start 255 255 0xF4 [0xA2, 0, 1]) = some (1, 0x13) := by decide
/-- A13. -/
theorem test_and : r0pc (start 0xCC 0xAA 0xF4 [0xA8, 0, 1]) = some (0x88, 0x13) := by decide
/-- A15. -/
theorem test_or : r0pc (start 0xCC 0xAA 0xF4 [0xAA, 0, 1]) = some (0xEE, 0x13) := by decide
/-- A17. -/
theorem test_xor : r0pc (start 0xCC 0xAA 0xF4 [0xAB, 0, 1]) = some (0x66, 0x13) := by decide
/-- A23. -/
theorem test_shl_amount_modulo_8 : r0pc (start 0xFF 9 0xF4 [0xAC, 0, 1]) = some (0xFE, 0x13) := by decide
/-- A24: the source is also the destination. -/
theorem test_shl_by_itself : r0pc (start 3 0 0xF4 [0xAC, 0, 0]) = some (0x18, 0x13) := by decide
/-- A26. -/
theorem test_shr_logical : r0pc (start 0xFF 1 0xF4 [0xAD, 0, 1]) = some (0x7F, 0x13) := by decide
/-- A28. -/
theorem test_shr_by_8 : r0pc (start 0x80 8 0xF4 [0xAD, 0, 1]) = some (0x80, 0x13) := by decide
/-- A31. -/
theorem test_mod : r0pc (start 17 5 0xF4 [0xA4, 0, 1]) = some (2, 0x13) := by decide
/-- A39: the index check precedes the divisor check. -/
theorem test_mod_index_before_divisor : stop (start 0 0 0xF4 [0xA4, 9, 0]) =
    some (some { kind := .addressOutOfRange, pc := 0x10, opcode := some 0xA4 }, 0x10) := by decide
/-- B1. -/
theorem test_not : r0pc (start 0x0F 0 0xF4 [0x69, 0]) = some (0xF0, 0x12) := by decide
/-- M4: an immediate above 7 is no register number. -/
theorem test_ldi_immediate_above_7 :
    (after (start 0 0 0xF4 [0x82, 1, 9])).map (fun t => (t.regs.r1, t.pc)) = some (9, 0x13) := by decide
/-- M8: the top cell. -/
theorem test_st_top_cell :
    (after (start 0xFF 7 0xF4 [0x84, 0, 1])).map (fun t => (Memory.read t.mem 0xFF, t.pc)) = some (7, 0x13) := by decide
/-- M9: ST over its own operand byte. -/
theorem test_st_over_itself :
    (after (start 0x11 0x55 0xF4 [0x84, 0, 1])).map (fun t => (Memory.read t.mem 0x11, t.pc)) =
      some (0x55, 0x13) := by decide
/-- M12. -/
theorem test_prn_sp : (after (start 0 0 0xF4 [0x47, 7])).map (fun t => (t.out, t.pc)) = some ([244], 0x12) := by decide
/-- K5: the last PUSH that fits. -/
theorem test_push_at_1 :
    (after (start 9 0 1 [0x45, 0])).map (fun t => (Memory.read t.mem 1, t.regs.r7)) = some (9, 0) := by decide
/-- K11: the index check precedes the overflow check. -/
theorem test_push_index_before_overflow : stop (start 0 0 0 [0x45, 8]) =
    some (some { kind := .addressOutOfRange, pc := 0x10, opcode := some 0x45 }, 0x10) := by decide
/-- K7: POP R7, the loaded value wins. -/
theorem test_pop_r7 :
    (after { start 0 0 0xF3 [0x46, 7] with mem := [(0x10, 0x46), (0x11, 7), (0xF4, 0x55)] }).map (fun t => t.regs.r7) =
      some 0x55 := by decide
/-- K15: no wrap to cell 0. -/
theorem test_pop_at_255 : stop (start 0 0 0xFF [0x46, 0]) =
    some (some { kind := .stackUnderflow, pc := 0x10, opcode := some 0x46 }, 0x10) := by decide
/-- J4: unsigned. -/
theorem test_cmp_unsigned :
    (after (start 0x80 0x7F 0xF4 [0xA7, 0, 1])).map (fun t => t.flags) =
      some { e := false, l := false, g := true } := by decide
/-- J1: first operand against second. -/
theorem test_cmp_direction :
    (after (start 3 7 0xF4 [0xA7, 0, 1])).map (fun t => t.flags) =
      some { e := false, l := true, g := false } := by decide
/-- J10. -/
theorem test_jmp_255 : (after (start 0xFF 0 0xF4 [0x54, 0])).map (fun t => t.pc) = some 0xFF := by decide
/-- J13: before any CMP, JEQ is not taken. -/
theorem test_jeq_not_taken : (after (start 0x30 0 0xF4 [0x55, 0])).map (fun t => t.pc) = some 0x12 := by decide
/-- J11. -/
theorem test_jeq_taken :
    (after { start 0x30 0 0xF4 [0x55, 0] with flags := { e := true, l := false, g := false } }).map (fun t => t.pc) =
      some 0x30 := by decide
/-- J16: before any CMP, JNE is taken. -/
theorem test_jne_taken : (after (start 0x30 0 0xF4 [0x56, 0])).map (fun t => t.pc) = some 0x30 := by decide
/-- J14. -/
theorem test_jne_not_taken :
    (after { start 0x30 0 0xF4 [0x56, 0] with flags := { e := true, l := false, g := false } }).map (fun t => t.pc) =
      some 0x12 := by decide
/-- L2 (the CallStack top first). -/
theorem test_call :
    (after { start 0 0x20 0xF4 [0x50, 1] with cs := [8] }).map (fun t => (t.cs, t.pc)) =
      some ([0x12, 8], 0x20) := by decide
/-- L6 with the capacity 2. -/
theorem test_call_full :
    stop { start 0 3 0xF4 [0x50, 1] with cs := [5, 5], cfg := { Config.default with callStackDepth := some 2 } } =
      some (some { kind := .stackOverflow, pc := 0x10, opcode := some 0x50 }, 0x10) := by decide
/-- L3. -/
theorem test_ret :
    (after { start 0 0 0xF4 [0x11] with cs := [0x12, 8] }).map (fun t => (t.cs, t.pc)) = some ([8], 0x12) := by decide
/-- L4. -/
theorem test_ret_empty : stop (start 0 0 0xF4 [0x11]) =
    some (some { kind := .callStackUnderflow, pc := 0x10, opcode := some 0x11 }, 0x10) := by decide
/-- L8: the CallStack is not checked. -/
theorem test_hlt :
    (after { start 0 0 0xF4 [0x01] with cs := [8] }).map (fun t => (t.status, t.pc, t.cs)) =
      some (.halted, 0x10, [8]) := by decide

/-- E5: the operand byte is not read from cell 0. -/
theorem test_operand_beyond_memory : stop { start 0 0 0xF4 [] with pc := 0xFF, mem := [(0, 1), (0xFF, 0x47)] } =
    some (some { kind := .addressOutOfRange, pc := 0xFF, opcode := some 0x47 }, 0xFF) := by decide
/-- E7, second cycle: the opcode is absent. -/
theorem test_fetch_beyond_memory : stop { start 0 0 0xF4 [] with pc := 0x100, mem := [(0, 1)] } =
    some (some { kind := .addressOutOfRange, pc := 0x100, opcode := none }, 0x100) := by decide
/-- E1. -/
theorem test_reset_runs_unknown_opcode : stop State.reset =
    some (some { kind := .unknownOpcode, pc := 0, opcode := some 0 }, 0) := by decide
/-- The table word is the first instruction after reset. -/
theorem test_withFetchWord :
    (after (State.reset.withFetchWord 24 0x080082)).map (fun t => (t.regs.r0, t.pc)) = some (8, 3) := by decide
/-- R139 at the top of memory. -/
theorem test_snapshot_at_255 :
    let v := State.snapshot { start 0 0 0xF4 [] with pc := 0xFF, mem := [(0xFF, 1)] }
    (v.opcode, v.next1, v.next2) = (some 1, none, none) := by decide
/-- Decision D15's packed byte. -/
theorem test_packed_flags : Flags.packed { e := false, l := true, g := false } = 4 := by decide

/-! ## Witnesses: for each obligation with hypotheses, states and operands that meet them, each clause at a boundary -/

/-- A status after `exec`, where there is a next state. -/
def execStatus (i : Instr) (s : State) : Option RunStatus :=
  match exec i s with
  | .next t => some t.status
  | .fault _ => none
  | .refused _ => none

theorem witness_EncodeOfDecodeIsIdentity : decode [0x82, 8, 255, 0x47] = .ok (.ldi 8 255, [0x47]) := rfl

/-- LDI in the last three cells. -/
def lastThree : State :=
  { start 0 0 0xF4 [] with pc := 0xFD, mem := [(0xFD, 0x82), (0xFE, 7), (0xFF, 5)] }

theorem witness_StepRunsDecodedInstruction :
    lastThree.status = .running ∧ lastThree.pc.toNat + (encode (.ldi 7 5)).length ≤ 256 ∧
    ∀ k b, (encode (.ldi 7 5))[k]? = some b → Memory.read lastThree.mem (lastThree.pc.toNat + k) = b := by
  refine ⟨rfl, by decide, fun k b h => ?_⟩
  rcases k with _ | _ | _ | k
  · cases h; rfl
  · cases h; rfl
  · cases h; rfl
  · simp [encode, Instr.operandBytes] at h

/-- E8's state: an unknown opcode in the last cell. -/
theorem witness_UnknownOpcodeStops :
    let s : State := { start 0 0 0xF4 [] with pc := 0xFF, mem := [(0xFF, 0x83)] }
    s.status = .running ∧ s.pc.toNat ≤ 255 ∧ decodeOpcode (Memory.read s.mem s.pc.toNat) = none :=
  ⟨rfl, by decide, rfl⟩

theorem witness_FetchBeyondMemoryStops :
    let s : State := { start 0 0 0xF4 [] with pc := 0x100 }
    s.status = .running ∧ 255 < s.pc.toNat := by decide

/-- E5 and E6: the first and the second operand byte beyond memory. -/
theorem witness_OperandBeyondMemoryStops :
    let s : State := { start 0 0 0xF4 [] with pc := 0xFF, mem := [(0xFF, 0x47)] }
    let u : State := { start 0 0 0xF4 [] with pc := 0xFE, mem := [(0xFE, 0x82)] }
    (s.status = .running ∧ s.pc.toNat ≤ 255 ∧ decodeOpcode (Memory.read s.mem s.pc.toNat) = some (.f1 .prn) ∧
      255 < s.pc.toNat + (RowShape.f1 .prn).operandCount) ∧
    (u.status = .running ∧ u.pc.toNat ≤ 255 ∧ decodeOpcode (Memory.read u.mem u.pc.toNat) = some (.f2 .ldi) ∧
      255 < u.pc.toNat + (RowShape.f2 .ldi).operandCount) :=
  ⟨⟨rfl, by decide, rfl, by decide⟩, ⟨rfl, by decide, rfl, by decide⟩⟩

theorem witness_TerminalStatesAreAbsorbing :
    State.reset.halt.status ≠ .running ∧ (State.reset.fatalStop .unknownOpcode (some 0)).status ≠ .running := by decide

theorem witness_RunningEndsOnlyByHltOrError :
    let s : State := { start 0 0 0xF4 [] with pc := 0xFF, mem := [(0xFF, 1)] }
    s.status = .running ∧ s.fault = none ∧ step s = .next { s with status := .halted } := ⟨rfl, rfl, rfl⟩

/-- The three clauses: an advance to 256, a redirect, and a stop. -/
theorem witness_PcAdvancesOrRedirects :
    (fetch lastThree = .ok (.ldi 7 5) ∧ redirectTarget (.ldi 7 5) lastThree = none ∧
      (after lastThree).map (fun t => (t.status, t.pc)) = some (.running, 0x100)) ∧
    (fetch (start 0xFF 0 0 [0x54, 0]) = .ok (.jmp 0) ∧ redirectTarget (.jmp 0) (start 0xFF 0 0 [0x54, 0]) = some 0xFF ∧
      (after (start 0xFF 0 0 [0x54, 0])).map (fun t => t.status) = some .running) ∧
    (fetch (start 0 0 0 [0x01]) = .ok .hlt ∧ (after (start 0 0 0 [0x01])).map (fun t => t.status) = some .halted) :=
  ⟨⟨rfl, rfl, by decide⟩, ⟨rfl, rfl, by decide⟩, ⟨rfl, by decide⟩⟩

theorem witness_LengthIsStatic : (Instr.ldi 0 1).opcode = (Instr.ldi 7 255).opcode := rfl

/-- An error in a handler, and one in the fetch. -/
theorem witness_FatalStopIsPrecise :
    (after (start 17 0 0 [0xA4, 0, 1])).map (fun t => t.status) = some .faulted ∧
    (after { start 0 0 0 [] with pc := 0x100 }).map (fun t => t.status) = some .faulted := by decide

theorem witness_IllegalRegisterOperandStops :
    8 ≤ (8 : Byte).toNat ∧ 8 ≤ (255 : Byte).toNat ∧ (7 : Byte).toNat < 8 ∧
    ¬ (Instr.ldi 8 0).WellFormed ∧ ¬ (Instr.st 0 255).WellFormed := by decide

/-- An illegal operand, and an error with legal operands. -/
theorem witness_ErrorKindsOfEachInstruction :
    execStatus (.mod 8 0) (start 0 0 0 []) = some .faulted ∧ execStatus (.mod 0 1) (start 0 0 0 []) = some .faulted := by
  decide

theorem witness_UnsupportedAluOperationIsUnreachable :
    (∀ r ∈ (start 0 0 0 []).fault, r.kind ≠ .unsupportedALUOperation) ∧
    (after (start 0 0 0 [])).isSome = true := by decide

/-- Each clause of OperationErrorsStop at the boundary of its test. -/
theorem witness_OperationErrorsStop :
    (start 17 0 0 []).regs.get 1 = 0 ∧
    ((start 0 0 0 []).regs.get 7).toNat ≤ (start 0 0 0 []).cfg.stackFloor.toNat ∧
    (start 0 0 0xF4 []).cfg.spInit.toNat ≤ ((start 0 0 0xF4 []).regs.get 7).toNat ∧
    (let s : State := { start 0 0 0 [] with cs := [5], cfg := { Config.default with callStackDepth := some 1 } }
     s.cfg.callStackDepth = some s.cs.length) ∧
    (start 0 0 0 []).cs = [] := by decide

/-- The ends of the ranges that MemReadIsBounded and MemWriteSetsOneCell name. -/
theorem witness_MemReadIsBounded_and_MemWriteSetsOneCell :
    ((0 : Int) ≤ 0 ∧ (0 : Int) ≤ 255) ∧ ((0 : Int) ≤ 255 ∧ (255 : Int) ≤ 255) ∧ (-1 : Int) < 0 ∧ (255 : Int) < 256 := by
  decide

theorem witness_CanonicalMemoriesWithEqualCellsAreEqual :
    Memory.wf [(0, 1), (255, 2)] ∧ Memory.wf (Memory.write [(255, 2)] 0 1) ∧
    ∀ a, a < 256 → Memory.read [(0, 1), (255, 2)] a = Memory.read (Memory.write [(255, 2)] 0 1) a :=
  ⟨by decide, by decide, fun _ _ => rfl⟩

theorem witness_ModResult : ((start 17 1 0 []).regs.get 1).toNat ≠ 0 ∧ ((start 17 255 0 []).regs.get 1).toNat ≠ 0 := by
  decide

/-- The illegal operand bytes of LdiLoadsImmediate, StStoresOneByte, JmpRedirects and JeqJneBranchOnEqual. -/
theorem witness_Ldi_St_Jmp_JeqJne : 8 ≤ (8 : Byte).toNat ∧ (8 ≤ (0 : Byte).toNat ∨ 8 ≤ (255 : Byte).toNat) := by decide

theorem witness_PushStoresThenDecrements :
    (start 0 0 1 []).cfg.stackFloor.toNat < ((start 0 0 1 []).regs.get 7).toNat := by decide

theorem witness_PopIncrementsThenLoads :
    ((start 0 0 0xF3 []).regs.get 7).toNat < (start 0 0 0xF3 []).cfg.spInit.toNat := by decide

/-- One pair at both ends of the range, and two pushes from SP = 2. -/
theorem witness_PushPopRoundTrip :
    (∀ x7 ∈ ([1, 0xF4] : List Byte), (start 0 0 x7 []).cfg.stackFloor.toNat < ((start 0 0 x7 []).regs.get 7).toNat ∧
      ((start 0 0 x7 []).regs.get 7).toNat ≤ (start 0 0 x7 []).cfg.spInit.toNat) ∧
    (1 : Fin 8) ≠ 7 ∧ (start 0 0 2 []).cfg.stackFloor.toNat + 1 < ((start 0 0 2 []).regs.get 7).toNat ∧
    ((start 0 0 2 []).regs.get 7).toNat ≤ (start 0 0 2 []).cfg.spInit.toNat := by decide

/-- A PUSH down to the floor and a POP up to the ceiling. -/
theorem witness_DataStackStaysInRange :
    (0 : Byte) ≠ regByte 7 ∧
    (∀ x7 ∈ ([1, 0xF3] : List Byte), (start 0 0 x7 []).cfg.stackFloor.toNat ≤ ((start 0 0 x7 []).regs.get 7).toNat ∧
      ((start 0 0 x7 []).regs.get 7).toNat ≤ (start 0 0 x7 []).cfg.spInit.toNat) ∧
    execStatus (.push 0) (start 0 0 1 []) = some .running ∧ execStatus (.pop 0) (start 0 0 0xF3 []) = some .running := by
  decide

/-- Unbounded, and one below a finite capacity. -/
theorem witness_CallPushesReturnAddress :
    (start 0 0 0 []).cfg.callStackDepth ≠ some (start 0 0 0 []).cs.length ∧
    (let s : State := { start 0 0 0 [] with cs := [5], cfg := { Config.default with callStackDepth := some 2 } }
     s.cfg.callStackDepth ≠ some s.cs.length) := by decide

theorem witness_RetPopsReturnAddress :
    ({ start 0 0 0 [] with cs := [0x100] } : State).cs = 0x100 :: [] ∧ (start 0 0 0 []).cs = [] := by decide

theorem witness_HltHalts : ∃ t, exec .hlt (start 0 0 0 []) = .next t := ⟨_, rfl⟩

theorem witness_ReturnResumesAfterItsCall :
    (start 0 0 0 []).cfg.callStackDepth ≠ some (start 0 0 0 []).cs.length ∧
    ∃ u v : State, exec (.call (regByte 0)) (start 0 0 0 []) = .next u ∧ v.cs = u.cs ∧ v.regs ≠ u.regs :=
  ⟨by decide, _, { start 0 9 0 [] with cs := [0x12] }, rfl, by decide, by decide⟩

/-- A form that completes and a form that raises, for each of the five frames. -/
theorem witness_frames :
    execStatus (.mod 0 1) (start 17 5 0 []) = some .running ∧ execStatus (.mod 0 1) (start 17 0 0 []) = some .faulted ∧
    execStatus (.st 0 1) (start 0xFF 7 0 []) = some .running ∧ execStatus (.st 0 8) (start 0 0 0 []) = some .faulted ∧
    regIndex 0 = .ok 0 ∧ ¬ (Instr.st 0 8).WellFormed ∧
    execStatus (.push 7) (start 0 0 1 []) = some .running ∧ execStatus (.push 7) (start 0 0 0 []) = some .faulted ∧
    execStatus (.pop 7) (start 0 0 0xF3 []) = some .running ∧ execStatus (.pop 7) (start 0 0 0xF4 []) = some .faulted ∧
    execStatus .hlt (start 0 0 0 []) = some .halted ∧ execStatus .ret (start 0 0 0 []) = some .faulted :=
  ⟨by decide, by decide, by decide, by decide, rfl, by decide, by decide, by decide, by decide, by decide, by decide,
    by decide⟩

/-- Each clause: an instruction that does change memory, a flag, the CallStack, the output. -/
theorem witness_HandlersTouchOnlyTheirOwn :
    (after (start 0xFF 7 0 [0x84, 0, 1])).map (fun t => Memory.read t.mem 0xFF) = some 7 ∧
    (after (start 3 3 0 [0xA7, 0, 1])).map (fun t => t.flags.e) = some true ∧
    (after (start 3 3 0 [0x50, 0])).map (fun t => t.cs) = some [0x12] ∧
    (after (start 3 3 0 [0x47, 0])).map (fun t => t.out) = some [3] := by decide

/-- A writer of no flag, CMP, a branch with the same E and an instruction that reads none. -/
theorem witness_OnlyCmpWritesOnlyBranchesReadFlags :
    (∀ o1 o2, Instr.jeq 0 ≠ .cmp o1 o2) ∧ (∃ t, exec (.jeq 0) (start 0x30 0 0 []) = .next t) ∧
    ({ e := false, l := true, g := false } : Flags).e = (start 0x30 0 0 []).flags.e ∧
    (∃ t, exec (.cmp (regByte 0) (regByte 1)) (start 3 7 0 []) = .next t) ∧
    (∀ o1, Instr.ret ≠ .jeq o1 ∧ Instr.ret ≠ .jne o1) :=
  ⟨by simp, ⟨_, rfl⟩, rfl, ⟨_, rfl⟩, by simp⟩

/-- Two steps: CMP and JEQ. -/
theorem witness_runs : ∃ t, core.run 2 (start 7 7 0 [0xA7, 0, 1, 0x55, 0]) = .next t ∧ t.pc = 7 := ⟨_, rfl, rfl⟩

theorem witness_FlagInvariant :
    (start 7 7 0 []).flags.AtMostOne ∧ (after (start 7 7 0 [0xA7, 0, 1])).isSome = true ∧
    (∃ t, exec (.cmp (regByte 0) (regByte 1)) (start 3 7 0 []) = .next t) ∧
    ({ start 7 7 0 [] with flags := { e := true, l := false, g := false } } : State).flags.ExactlyOne :=
  ⟨by decide, by decide, ⟨_, rfl⟩, by decide⟩

/-- A state with pc = 256, a full CallStack and a flag set. -/
theorem witness_StepKeepsInvariant :
    let s : State := { start 7 7 0 [] with
      pc := 0x100, flags := { e := true, l := false, g := false }, cs := [0x100, 2],
      cfg := { spInit := 0, stackFloor := 0, callStackDepth := some 2 } }
    Inv s ∧ (after s).isSome = true := by
  refine ⟨⟨by decide, by decide, by decide, by decide, ?_, by decide, ?_⟩, by decide⟩
  · intro d hd; cases hd; decide
  · exact ⟨by decide, fun d hd => by cases hd; decide⟩

set_option maxRecDepth 4000 in
/-- A launch with an image and a memory rest, and two steps of it. -/
theorem witness_EveryReachableStateMeetsInvariant :
    ∃ s t, State.launch Config.default [0x82, 0, 8, 0x01] (fun _ => 0xFF) = .next s ∧ core.run 2 s = .next t ∧
      t.status = .halted := ⟨_, _, rfl, rfl, rfl⟩

/-- A legal configuration, and images of 256 and 257 bytes. -/
theorem witness_LaunchLoadsImage :
    Config.default.wf ∧ (List.replicate 256 (1 : Byte)).length ≤ 256 ∧ 256 < (List.replicate 257 (1 : Byte)).length :=
  ⟨⟨by decide, fun d hd => by cases hd⟩, List.length_replicate.le, List.length_replicate.ge⟩

theorem witness_ExecutionStartsAtAddressZero :
    ∃ s, State.launch Config.default (encode (.ldi 0 8) ++ [0x01]) (fun _ => 0) = .next s := ⟨_, rfl⟩

theorem witness_EndReportAfterEachEnd :
    (start 0 0 0 []).fault = none ∧ (∃ t, exec .hlt (start 0 0 0 []) = .next t) ∧ (start 0 0 0 []).status = .running :=
  ⟨rfl, ⟨_, rfl⟩, rfl⟩

end Sys2Proof.Tests
end

section
/-! Flag noninterference (rule R16). The outcome of an instruction on a state with other flags is the same outcome with
those flags, unless the instruction is CMP, or a branch that sees another E. -/

namespace Sys2Proof.Machine

/-! ### A handler run with other flags -/

/-- A step of a handler that reads no flag: the continuation alone decides what other flags do to the result. -/
theorem bind_eq_map_bind {ε α β : Type} {F : β → β} {x : Except ε α} {g g' : α → Except ε β}
    (h : ∀ a, g' a = (g a).map F) : (x >>= g') = (x >>= g).map F := by
  cases x with
  | ok a => exact h a
  | error e => rfl

/-- The end of a handler carries the flags through: a completion by `hr`, and the fatal stop because it writes none. -/
theorem conclude_setFlags {s t : State} {op : Byte} {f : Flags} {r r' : Except ErrorKind State}
    (hr : r' = r.map (State.setFlags · f)) (h : conclude s op r = .next t) :
    conclude (s.setFlags f) op r' = .next (t.setFlags f) := by
  subst hr
  rcases conclude_eq_next.mp h with rfl | ⟨k, rfl, rfl⟩ <;> rfl

theorem aluBinary_setFlags {sel : AluOp} {op o1 o2 : Byte} {s t : State} {f : Flags}
    (h : aluBinary sel op o1 o2 s = .next t) : aluBinary sel op o1 o2 (s.setFlags f) = .next (t.setFlags f) :=
  conclude_setFlags (bind_eq_map_bind fun _ => bind_eq_map_bind fun _ => bind_eq_map_bind fun _ => rfl) h

theorem branchIf_setFlags {taken : Bool} {op o1 : Byte} {s t : State} {f : Flags}
    (h : branchIf taken op o1 s = .next t) : branchIf taken op o1 (s.setFlags f) = .next (t.setFlags f) :=
  conclude_setFlags (bind_eq_map_bind fun _ => by cases taken <;> rfl) h

/-! ### The instructions -/

/-- The outcome of an instruction other than CMP on a state with other flags, E being the same where it branches on
it. -/
theorem exec_setFlags {i : Instr} {s t : State} {f : Flags} (hcmp : ∀ o1 o2, i ≠ .cmp o1 o2)
    (he : (∀ o1, i ≠ .jeq o1 ∧ i ≠ .jne o1) ∨ f.e = s.flags.e) (h : exec i s = .next t) :
    exec i (s.setFlags f) = .next (t.setFlags f) := by
  cases i with
  | hlt => cases h; rfl
  | ret => exact conclude_setFlags (by rw [State.setFlags_cs]; cases s.cs <;> rfl) h
  | push o1 =>
    exact conclude_setFlags (bind_eq_map_bind fun _ => bind_eq_map_bind fun _ => bind_eq_map_bind fun _ => rfl) h
  | pop o1 =>
    exact conclude_setFlags (bind_eq_map_bind fun _ => bind_eq_map_bind fun _ => bind_eq_map_bind fun _ => rfl) h
  | prn o1 => exact conclude_setFlags (bind_eq_map_bind fun _ => rfl) h
  | call o1 => exact conclude_setFlags (bind_eq_map_bind fun _ => bind_eq_map_bind fun _ => rfl) h
  | jmp o1 => exact conclude_setFlags (bind_eq_map_bind fun _ => rfl) h
  | jeq o1 =>
    have hE : f.e = s.flags.e := he.resolve_left fun hn => (hn o1).1 rfl
    change branchIf f.e _ _ _ = _
    rw [hE]
    exact branchIf_setFlags h
  | jne o1 =>
    have hE : f.e = s.flags.e := he.resolve_left fun hn => (hn o1).2 rfl
    change branchIf (!f.e) _ _ _ = _
    rw [hE]
    exact branchIf_setFlags h
  | not o1 => exact conclude_setFlags (bind_eq_map_bind fun _ => bind_eq_map_bind fun _ => rfl) h
  | ldi o1 o2 => exact conclude_setFlags (bind_eq_map_bind fun _ => rfl) h
  | st o1 o2 =>
    exact conclude_setFlags (bind_eq_map_bind fun _ => bind_eq_map_bind fun _ => bind_eq_map_bind fun _ => rfl) h
  | cmp o1 o2 => exact absurd rfl (hcmp o1 o2)
  | add o1 o2 => exact aluBinary_setFlags h
  | mul o1 o2 => exact aluBinary_setFlags h
  | mod o1 o2 => exact aluBinary_setFlags h
  | and o1 o2 => exact aluBinary_setFlags h
  | or o1 o2 => exact aluBinary_setFlags h
  | xor o1 o2 => exact aluBinary_setFlags h
  | shl o1 o2 => exact aluBinary_setFlags h
  | shr o1 o2 => exact aluBinary_setFlags h

/-- No instruction but CMP writes a flag: by `exec_setFlags` with the flags the state already has, the outcome is
unchanged when those flags are put into it. -/
theorem exec_flags {i : Instr} {s t : State} (hcmp : ∀ o1 o2, i ≠ .cmp o1 o2) (h : exec i s = .next t) :
    t.flags = s.flags := by
  have hsame : exec i s = .next (t.setFlags s.flags) := exec_setFlags hcmp (.inr rfl) h
  have ht : t = t.setFlags s.flags := Host.Outcome.next.inj (h.symm.trans hsame)
  rw [ht, State.setFlags_flags]

/-- CMP with legal register operands completes (rule R100). -/
theorem exec_cmp_regByte (ra rb : Fin 8) (s : State) :
    exec (.cmp (regByte ra) (regByte rb)) s =
      .next ((s.setFlags (Flags.compare (s.regs.get ra) (s.regs.get rb))).advance 2) := by
  simp [exec, execCmp]

/-- A completing CMP does not depend on the flags before it: it writes all three. -/
theorem exec_cmp_setFlags (ra rb : Fin 8) (s : State) (f : Flags) :
    exec (.cmp (regByte ra) (regByte rb)) (s.setFlags f) = exec (.cmp (regByte ra) (regByte rb)) s := by
  rw [exec_cmp_regByte, exec_cmp_regByte]
  rfl

/-- Settles O48: one commutation lemma, `exec_setFlags`, gives both that no flag is written and what is read. -/
theorem onlyCmpWritesOnlyBranchesReadFlags : Obligations.OnlyCmpWritesOnlyBranchesReadFlags :=
  ⟨fun _ _ _ hcmp h => exec_flags hcmp h,
    fun ra rb s _ f h => (exec_cmp_setFlags ra rb s f).trans h,
    fun _ _ _ _ hcmp he h => exec_setFlags hcmp he h⟩

end Sys2Proof.Machine
end

section
/-! The bounded memory accesses at every integer address (rules R31 and R32): inside 0..255 they are the accesses at a
natural address, outside they raise AddressOutOfRange. -/

namespace Sys2Proof.Machine

/-- Every cell after a write, on every memory. -/
theorem Memory.read_write (m : Memory) (a x : Nat) (v : Byte) :
    Memory.read (Memory.write m a v) x = if x = a then v else Memory.read m x := by
  split
  · rename_i h; rw [h, Memory.read_write_same]
  · rename_i h; exact Memory.read_write_ne m v h

theorem memRead_outside (m : Memory) {addr : Int} (h : addr < 0 ∨ 255 < addr) :
    memRead m addr = .error .addressOutOfRange :=
  if_neg (by omega)

theorem memWrite_outside (m : Memory) {addr : Int} (v : Byte) (h : addr < 0 ∨ 255 < addr) :
    memWrite m addr v = .error .addressOutOfRange :=
  if_neg (by omega)

/-- Settles O20: inside the range the address is a natural one, and `Memory.read_write` says what each cell holds. -/
theorem memWriteSetsOneCell : Obligations.MemWriteSetsOneCell := by
  refine fun m addr v => ⟨fun ⟨hlo, hhi⟩ => ?_, memWrite_outside m v⟩
  lift addr to Nat using hlo
  refine ⟨Memory.write m addr v, memWrite_nat m v (by omega), fun a => ?_⟩
  simp only [Memory.read_write, Nat.cast_inj]

/-- Settles O19: inside the range the address is a natural one, and the read there is `memRead_nat`. -/
theorem memReadIsBounded : Obligations.MemReadIsBounded := by
  refine fun m addr => ⟨fun ⟨hlo, hhi⟩ => ?_, memRead_outside m⟩
  lift addr to Nat using hlo
  exact memRead_nat m (by omega)

end Sys2Proof.Machine
end

section
/-! The cycle of rule R62: the stop at an unknown opcode (R61), and where the PC is after a step (R65). -/

namespace Sys2Proof.Machine

/-! ### The end of the fetch -/

/-- A running core executes the instruction it fetched (step 5 of rule R62). -/
theorem step_of_fetch {s : State} {i : Instr} (hr : s.status = .running) (hf : fetch s = .ok i) :
    step s = exec i s := by
  rw [step_running hr, hf]

/-- Rule R61: no operand byte has a part in the fetch of an unknown opcode. -/
theorem fetch_unknown {s : State} (hpc : s.pc.toNat ≤ 255)
    (hd : decodeOpcode (Memory.read s.mem s.pc.toNat) = none) :
    fetch s = .error (.unknownOpcode, some (Memory.read s.mem s.pc.toNat)) := by
  rw [fetch_in hpc, hd]

/-- Settles O6: the fetch fails with UnknownOpcode, and its fatal stop is the state of the statement. -/
theorem unknownOpcodeStops : Obligations.UnknownOpcodeStops := by
  intro s hr hpc hd
  rw [step_running hr, fetch_unknown hpc hd]
  rfl

/-! ### The PC after a completed instruction (rule R65) -/

theorem jumpTarget_of_regIndex {o1 : Byte} {ra : Fin 8} (s : State) (h : regIndex o1 = .ok ra) :
    jumpTarget o1 s = some (zext9 (s.regs.get ra)) := by
  simp only [jumpTarget, h, zext9, BitVec.ofNat_toNat]

theorem aluCompletes_pc {sel : AluOp} {o1 o2 : Byte} {s t : State} (h : AluCompletes sel o1 o2 s t) :
    t.pc = s.pc + 3 := by
  obtain ⟨_, _, _, _, _, _, rfl⟩ := h
  rfl

theorem branchCompletes_pc {taken : Bool} {o1 : Byte} {s t : State} (h : BranchCompletes taken o1 s t) :
    t.pc = (if taken then jumpTarget o1 s else none).getD (s.pc + 2) := by
  obtain ⟨ra, h1, rfl⟩ := h
  rw [jumpTarget_of_regIndex s h1]
  cases taken <;> rfl

/-- The PC after a completed instruction, in one equation: its target if it redirects, the address after its own
bytes if not. HLT does neither. -/
theorem completes_pc {i : Instr} {s t : State} (hi : i ≠ .hlt) (h : Completes i s t) :
    t.pc = (redirectTarget i s).getD (s.pc + BitVec.ofNat 9 (encode i).length) := by
  cases i with
  | hlt => exact absurd rfl hi
  | ret => obtain ⟨_, _, hcs, rfl⟩ := h; rw [redirectTarget, hcs]; rfl
  | call o1 => obtain ⟨_, h1, _, rfl⟩ := h; rw [redirectTarget, jumpTarget_of_regIndex s h1]; rfl
  | jmp o1 => obtain ⟨_, h1, rfl⟩ := h; rw [redirectTarget, jumpTarget_of_regIndex s h1]; rfl
  | jeq o1 => exact branchCompletes_pc h
  | jne o1 => rw [branchCompletes_pc h, redirectTarget]; cases s.flags.e <;> rfl
  | push o1 => obtain ⟨_, _, _, rfl⟩ := h; rfl
  | pop o1 => obtain ⟨_, _, _, rfl⟩ := h; rfl
  | prn o1 => obtain ⟨_, _, rfl⟩ := h; rfl
  | not o1 => obtain ⟨_, _, rfl⟩ := h; rfl
  | ldi o1 o2 => obtain ⟨_, _, rfl⟩ := h; rfl
  | st o1 o2 => obtain ⟨_, _, _, _, rfl⟩ := h; rfl
  | cmp o1 o2 => obtain ⟨_, _, _, _, rfl⟩ := h; rfl
  | add o1 o2 => exact aluCompletes_pc h
  | mul o1 o2 => exact aluCompletes_pc h
  | mod o1 o2 => exact aluCompletes_pc h
  | and o1 o2 => exact aluCompletes_pc h
  | or o1 o2 => exact aluCompletes_pc h
  | xor o1 o2 => exact aluCompletes_pc h
  | shl o1 o2 => exact aluCompletes_pc h
  | shr o1 o2 => exact aluCompletes_pc h

/-! ### The PC after any outcome of `exec` -/

/-- The two ways an instruction can end: running with the PC of `completes_pc`, or (HLT, a raise) not running with the
PC where it was. -/
theorem exec_pc {i : Instr} {s t : State} (hr : s.status = .running) (h : exec i s = .next t) :
    (t.status = .running ∧ t.pc = (redirectTarget i s).getD (s.pc + BitVec.ofNat 9 (encode i).length)) ∨
    (t.status ≠ .running ∧ t.pc = s.pc) := by
  rcases exec_cases h with hc | ⟨k, rfl, _⟩
  · obtain ⟨_, _, ⟨rfl, _⟩ | ⟨hi, hst⟩⟩ := completes_status hc
    · subst hc
      exact .inr ⟨by simp, State.halt_pc s⟩
    · exact .inl ⟨hst.trans hr, completes_pc hi hc⟩
  · exact .inr ⟨by simp, State.fatalStop_pc s k _⟩

/-- The advance past a fetched instruction does not wrap: the 9 bits hold 256, and its bytes end there at the latest. -/
theorem fetch_advance_toNat {s : State} {i : Instr} (hf : fetch s = .ok i) :
    (s.pc + BitVec.ofNat 9 (encode i).length).toNat = s.pc.toNat + (encode i).length := by
  obtain ⟨hfits, _⟩ := fetch_eq_ok hf
  rw [BitVec.toNat_add, BitVec.toNat_ofNat]
  omega

/-- Settles O12: `exec_pc` says where the PC is, and `fetch_advance_toNat` that an advance is one on numbers. -/
theorem pcAdvancesOrRedirects : Obligations.PcAdvancesOrRedirects := by
  intro s t i hr hf hstep
  rw [step_of_fetch hr hf] at hstep
  rcases exec_pc hr hstep with ⟨hrun, hpc⟩ | ⟨hstop, hpc⟩
  · refine ⟨fun _ hnone => ?_, fun _ a hsome => ?_, absurd hrun⟩
    · rw [hpc, hnone, Option.getD_none, fetch_advance_toNat hf]
      exact ⟨rfl, (fetch_eq_ok hf).1⟩
    · rw [hpc, hsome, Option.getD_some]
  · exact ⟨(absurd · hstop), (absurd · hstop), fun _ => hpc⟩

end Sys2Proof.Machine
end

section
/-! The ALU's table (rule R75), a row at a time: the arithmetic rows as expressions on natural numbers, the bitwise rows
bit by bit. -/

namespace Sys2Proof.Machine

/-- A row of the table whose result is determined by its number. -/
theorem ok_ofNat_of_toNat {r : Byte} {n : Nat} (h : r.toNat = n) :
    (Except.ok r : Except ErrorKind Byte) = .ok (BitVec.ofNat 8 n) :=
  congrArg Except.ok (BitVec.toNat_eq_nat.mp h).2

/-! ### The arithmetic rows -/

theorem alu_add (a b : Byte) : alu (some .add) a b = .ok (BitVec.ofNat 8 ((a.toNat + b.toNat) % 256)) :=
  ok_ofNat_of_toNat (BitVec.toNat_add a b)

theorem alu_mul (a b : Byte) : alu (some .mul) a b = .ok (BitVec.ofNat 8 ((a.toNat * b.toNat) % 256)) :=
  ok_ofNat_of_toNat (BitVec.toNat_mul a b)

/-- A shift to the left by `k` multiplies by `2 ^ k`, and the bits past the byte are lost. -/
theorem alu_shl (a b : Byte) :
    alu (some .shl) a b = .ok (BitVec.ofNat 8 ((a.toNat * 2 ^ (b.toNat % 8)) % 256)) :=
  ok_ofNat_of_toNat (by rw [BitVec.toNat_shiftLeft, Nat.shiftLeft_eq])

/-- The shift to the right is logical and takes `a` as it is: a division by `2 ^ k` (rule R85). -/
theorem alu_shr (a b : Byte) : alu (some .shr) a b = .ok (BitVec.ofNat 8 (a.toNat / 2 ^ (b.toNat % 8))) :=
  ok_ofNat_of_toNat (by rw [BitVec.toNat_ushiftRight, Nat.shiftRight_eq_div_pow])

theorem alu_mod_zero (a : Byte) : alu (some .mod) a 0 = .error .divideByZero :=
  apply_eq_error (a := a).mpr ⟨rfl, rfl, rfl⟩

theorem alu_mod {a b : Byte} (hb : b ≠ 0) : alu (some .mod) a b = .ok (BitVec.ofNat 8 (a.toNat % b.toNat)) :=
  (if_neg hb).trans (ok_ofNat_of_toNat BitVec.toNat_umod)

/-- The divisor's test on numbers, as the table states it. -/
theorem alu_mod_eq_ite (a b : Byte) : alu (some .mod) a b =
    if b.toNat = 0 then .error .divideByZero else .ok (BitVec.ofNat 8 (a.toNat % b.toNat)) := by
  split
  · rename_i hz
    rw [BitVec.eq_of_toNat_eq (y := 0) hz, alu_mod_zero]
  · rename_i hz
    exact alu_mod fun hb => hz (congrArg BitVec.toNat hb)

/-! ### The bitwise rows -/

theorem alu_and_bits (a b : Byte) :
    ∃ r, alu (some .and) a b = .ok r ∧ ∀ k, k < 8 → r.getLsbD k = (a.getLsbD k && b.getLsbD k) :=
  ⟨a &&& b, rfl, fun _ _ => BitVec.getLsbD_and⟩

theorem alu_or_bits (a b : Byte) :
    ∃ r, alu (some .or) a b = .ok r ∧ ∀ k, k < 8 → r.getLsbD k = (a.getLsbD k || b.getLsbD k) :=
  ⟨a ||| b, rfl, fun _ _ => BitVec.getLsbD_or⟩

theorem alu_xor_bits (a b : Byte) :
    ∃ r, alu (some .xor) a b = .ok r ∧ ∀ k, k < 8 → r.getLsbD k = (a.getLsbD k != b.getLsbD k) :=
  ⟨a ^^^ b, rfl, fun _ _ => BitVec.getLsbD_xor⟩

/-- Only inside the byte: above it the complement too reads as zero. -/
theorem alu_not_bits (a b : Byte) :
    ∃ r, alu (some .not) a b = .ok r ∧ ∀ k, k < 8 → r.getLsbD k = !a.getLsbD k :=
  ⟨~~~ a, rfl, fun k hk => by rw [BitVec.getLsbD_not, decide_eq_true hk, Bool.true_and]⟩

/-- Settles O22: the rows of the table, in its order; only MOD has a case split, at divisor 0. -/
theorem aluTable : Obligations.AluTable := fun a b =>
  ⟨alu_add a b, alu_mul a b, alu_and_bits a b, alu_or_bits a b, alu_xor_bits a b, alu_not_bits a b,
    alu_shl a b, alu_shr a b, alu_mod_eq_ite a b⟩

end Sys2Proof.Machine
end

section
/-! The data stack (rules R95, R96, R98): where PUSH and POP complete, and that a POP gives back what was pushed. -/

namespace Sys2Proof.Machine

/-! ### PUSH where it completes -/

/-- The state after PUSH of register `ra` (rule R95). -/
def State.afterPush (s : State) (ra : Fin 8) : State :=
  ((s.setMem (Memory.write s.mem s.sp.toNat (s.regs.get ra))).setReg spIndex (s.sp - 1)).advance 1

theorem exec_push_regByte {s : State} (ra : Fin 8) (hfloor : s.cfg.stackFloor.toNat < s.sp.toNat) :
    exec (.push (regByte ra)) s = .next (s.afterPush ra) := by
  have htest : (s.cfg.stackFloor.toNat : Int) ≤ (s.sp.toNat : Int) - 1 := by omega
  simp [exec, execPush, require, htest, memWrite_byte, State.afterPush]

theorem State.afterPush_mem (s : State) (ra : Fin 8) :
    (s.afterPush ra).mem = Memory.write s.mem s.sp.toNat (s.regs.get ra) := rfl

theorem State.afterPush_sp (s : State) (ra : Fin 8) : (s.afterPush ra).sp = s.sp - 1 :=
  Regs.get_set_same s.regs spIndex (s.sp - 1)

/-- The cell that PUSH wrote. -/
theorem State.read_afterPush (s : State) (ra : Fin 8) :
    Memory.read (s.afterPush ra).mem s.sp.toNat = s.regs.get ra :=
  Memory.read_write_same ..

/-- PUSH changes no register but R7. -/
theorem State.get_afterPush (s : State) (ra : Fin 8) {r : Fin 8} (hr : r ≠ spIndex) :
    (s.afterPush ra).regs.get r = s.regs.get r :=
  Regs.get_set_ne _ _ hr

/-! ### POP where it completes -/

/-- The state after a POP that moves SP up to `a` and loads `v` into register `rb` (rule R96). -/
def State.afterPop (s : State) (rb : Fin 8) (a v : Byte) : State :=
  ((s.setReg spIndex a).setReg rb v).advance 1

/-- POP of cell `a`, just above SP, when the ceiling is not below it. -/
theorem exec_pop_regByte {s : State} {a v : Byte} (rb : Fin 8) (hsp : s.sp = a - 1) (hpos : 0 < a.toNat)
    (hceil : a.toNat ≤ s.cfg.spInit.toNat) (hv : Memory.read s.mem a.toNat = v) :
    exec (.pop (regByte rb)) s = .next (s.afterPop rb a v) := by
  have hbyte : s.sp + 1#8 = a := by rw [hsp]; exact BitVec.sub_add_cancel a 1#8
  have hint : (s.sp.toNat : Int) + 1 = (a.toNat : Int) := by rw [hsp]; bv_omega
  have hread : memRead s.mem (a.toNat : Int) = .ok v := by rw [memRead_nat _ (by omega), hv]
  simp [exec, execPop, require, hint, hbyte, hceil, hread, State.afterPop]

theorem State.afterPop_sp (s : State) {rb : Fin 8} (a v : Byte) (hrb : rb ≠ spIndex) : (s.afterPop rb a v).sp = a :=
  (Regs.get_set_ne _ _ hrb.symm).trans (Regs.get_set_same s.regs spIndex a)

theorem State.get_afterPop_same (s : State) (rb : Fin 8) (a v : Byte) : (s.afterPop rb a v).regs.get rb = v :=
  Regs.get_set_same ..

/-! ### The round trip (rule R98) -/

/-- The POP puts the old SP back, so only its destination differs. -/
theorem State.afterPop_afterPush_regs (s : State) (ra rb : Fin 8) (v : Byte) :
    ((s.afterPush ra).afterPop rb s.sp v).regs = s.regs.set rb v := by
  change ((s.regs.set 7 (s.sp - 1)).set 7 (s.regs.get 7)).set rb v = _
  rw [Regs.set_set_same, Regs.set_get_same]

/-- A PUSH above the floor and the POP after it: SP is one below the pushed cell, which still holds the value. -/
theorem exec_push_pop (ra rb : Fin 8) {s : State} (hfloor : s.cfg.stackFloor.toNat < s.sp.toNat)
    (hceil : s.sp.toNat ≤ s.cfg.spInit.toNat) :
    exec (.push (regByte ra)) s = .next (s.afterPush ra) ∧
      exec (.pop (regByte rb)) (s.afterPush ra) = .next ((s.afterPush ra).afterPop rb s.sp (s.regs.get ra)) :=
  ⟨exec_push_regByte ra hfloor,
    exec_pop_regByte rb (s.afterPush_sp ra) (by omega) hceil (s.read_afterPush ra)⟩

/-- The second PUSH goes to the cell below and leaves the one of the first alone. -/
theorem State.read_afterPush_afterPush (s : State) (ra rb : Fin 8) :
    Memory.read ((s.afterPush ra).afterPush rb).mem s.sp.toNat = s.regs.get ra := by
  have hne : s.sp.toNat ≠ (s.sp - 1).toNat := by bv_omega
  rw [State.afterPush_mem (s.afterPush ra), State.afterPush_sp, Memory.read_write_ne _ _ hne, State.read_afterPush]

/-- Two PUSHes and the two POPs after them, by the round trip inside and one more POP. The second pushed register and
the first popped one are not R7, which the first PUSH changes and the second POP needs. -/
theorem push_push_pop_pop_reverses (ra : Fin 8) {rb rc : Fin 8} (rd : Fin 8) {s : State} (hb : rb ≠ 7) (hc : rc ≠ 7)
    (hfloor : s.cfg.stackFloor.toNat + 1 < s.sp.toNat) (hceil : s.sp.toNat ≤ s.cfg.spInit.toNat) :
    ∃ u v w t, exec (.push (regByte ra)) s = .next u ∧ exec (.push (regByte rb)) u = .next v ∧
      exec (.pop (regByte rc)) v = .next w ∧ exec (.pop (regByte rd)) w = .next t ∧
      w.regs.get rc = s.regs.get rb ∧ t.regs.get rd = s.regs.get ra := by
  have hsp : (s.afterPush ra).sp.toNat = s.sp.toNat - 1 := by rw [State.afterPush_sp]; bv_omega
  have hfloor' : s.cfg.stackFloor.toNat < (s.afterPush ra).sp.toNat := by omega
  have hceil' : (s.afterPush ra).sp.toNat ≤ s.cfg.spInit.toNat := by omega
  obtain ⟨hpush, hpop⟩ := exec_push_pop rb rc hfloor' hceil'
  refine ⟨_, _, _, _, exec_push_regByte ra (by omega), hpush, hpop,
    exec_pop_regByte rd ?_ (by omega) hceil (s.read_afterPush_afterPush ra rb), ?_,
    State.get_afterPop_same ..⟩
  · rw [State.afterPop_sp _ _ _ hc, State.afterPush_sp]
  · rw [State.get_afterPop_same, State.get_afterPush _ _ hb]

/-- Settles O33: the round trip is `exec_push_pop`, the reverse order `push_push_pop_pop_reverses`. -/
theorem pushPopRoundTrip : Obligations.PushPopRoundTrip := by
  refine ⟨fun ra rb s hfloor hceil => ?_, fun ra _ _ rd _ hb hc => push_push_pop_pop_reverses ra rd hb hc⟩
  obtain ⟨hpush, hpop⟩ := exec_push_pop ra rb hfloor hceil
  have hregs := s.afterPop_afterPush_regs ra rb (s.regs.get ra)
  refine ⟨_, _, hpush, hpop, rfl, hregs, ?_, BitVec.add_assoc .., fun a => Memory.read_write ..⟩
  rintro rfl
  rw [hregs, Regs.set_get_same]

end Sys2Proof.Machine
end

section
/-! The decoder against the encoder (rules R45 to R52): each undoes the other, and the opcode byte alone
fixes the row and so the length. -/

namespace Sys2Proof

/-! ### Round trips -/

/-- The opcode byte selects the row of the instruction, and the row takes exactly its operand bytes. -/
theorem decode_encode (i : Instr) (rest : List Byte) : decode (encode i ++ rest) = .ok (i, rest) := by
  rw [encode, List.cons_append, decode_cons, decodeOpcode_opcode]
  simp only [takeOperands_row]

/-- Settles O1: it is `decode_encode`. -/
theorem decodeOfEncodeIsIdentity : Obligations.DecodeOfEncodeIsIdentity := decode_encode

/-- A successful decode found a row, and the row took the operand bytes. -/
theorem decode_eq_ok {bs rest : List Byte} {i : Instr} (h : decode bs = .ok (i, rest)) :
    ∃ op tail row, bs = op :: tail ∧ decodeOpcode op = some row ∧ row.takeOperands tail = some (i, rest) := by
  cases bs with
  | nil => cases h
  | cons op tail =>
    rw [decode_cons] at h
    split at h
    · cases h
    · rename_i row hrow
      split at h
      · cases h
      · rename_i r htake
        injection h with h
        exact ⟨op, tail, row, rfl, hrow, h ▸ htake⟩

/-- Settles O2: the row that was found builds instructions with its own opcode byte and the operand bytes it took. -/
theorem encodeOfDecodeIsIdentity : Obligations.EncodeOfDecodeIsIdentity := by
  intro bs rest i h
  obtain ⟨op, tail, row, rfl, hrow, htake⟩ := decode_eq_ok h
  obtain ⟨rfl, rfl⟩ := row_of_takeOperands (mem_opcodeTable_of_decodeOpcode hrow) htake
  rfl

/-! ### Lengths and opcode bytes -/

theorem encode_length (i : Instr) : (encode i).length = 1 + i.row.operandCount := by
  cases i <;> rfl

/-- Settles O13: instructions with one opcode byte share their row, and the row fixes the length. -/
theorem lengthIsStatic : Obligations.LengthIsStatic := by
  intro i j h
  have hrow : some i.row = some j.row := by rw [← decodeOpcode_opcode, h, decodeOpcode_opcode]
  refine ⟨?_, encode_length_bounds i⟩
  rw [encode_length, encode_length, Option.some.inj hrow]

/-- A byte that is none of the 21 opcodes is unknown (rule R52). -/
theorem decodeOpcode_of_not_mem {op : Byte} (h : op ∉ opcodeTable.map Prod.fst) : decodeOpcode op = none := by
  cases hd : decodeOpcode op with
  | none => rfl
  | some row => exact absurd (List.mem_map_of_mem (mem_opcodeTable_of_decodeOpcode hd)) h

set_option maxRecDepth 4000 in
/-- Of the 256 byte values all but the 21 opcodes are unknown. -/
theorem unknown_bytes_count :
    ((List.range 256).filter fun n => (decodeOpcode (BitVec.ofNat 8 n)).isNone).length = 235 := by
  decide

/-- Settles O3: the 21 bytes of the table one by one, any other byte by `decodeOpcode_of_not_mem`. -/
theorem opcodeBytesAndOperandCounts : Obligations.OpcodeBytesAndOperandCounts := by
  refine ⟨fun op => ?_, unknown_bytes_count⟩
  by_cases hop : op ∈ opcodeTable.map Prod.fst
  · revert op
    decide
  · rw [decodeOpcode_of_not_mem hop]
    simp [opcodeTable] at hop
    simp [hop]

/-- Settles O4: each word decodes by computation. -/
theorem wordsOfEachFamilyDecode : Obligations.WordsOfEachFamilyDecode :=
  ⟨rfl, rfl, rfl, rfl, rfl, rfl, rfl, rfl, rfl, rfl, rfl, rfl⟩

end Sys2Proof
end

section
/-! Errors (rules R11, R44, R110 to R112): every outcome is a next state, an illegal register operand is the fatal stop
whatever else holds, and which kind each instruction records. -/

namespace Sys2Proof.Machine

/-! ### Every outcome is a next state (rule R44) -/

theorem exec_total (i : Instr) (s : State) : ∃ t, exec i s = .next t := by
  cases i
  case hlt => exact ⟨_, rfl⟩
  all_goals exact conclude_total _ _ _

theorem step_total (s : State) : ∃ t, step s = .next t := by
  by_cases hr : s.status = .running
  · rw [step_running hr]
    split
    · exact exec_total _ s
    · exact ⟨_, rfl⟩
  · exact ⟨s, step_terminal hr⟩

/-- Settles O9: `exec_total` and `step_total`. -/
theorem everyStepAnswersANextState : Obligations.EveryStepAnswersANextState := ⟨exec_total, step_total⟩

/-! ### Register operands (rule R11) -/

theorem exists_regByte_of_lt {o : Byte} (h : o.toNat < 8) : ∃ r, o = regByte r :=
  ⟨⟨o.toNat, h⟩, BitVec.eq_of_toNat_eq (toNat_regByte ⟨_, h⟩).symm⟩

/-- Only an instruction with legal register operands completes. -/
theorem completes_wellFormed {i : Instr} {s t : State} (h : Completes i s t) : i.WellFormed := by
  cases i <;> simp only [Completes, AluCompletes, BranchCompletes] at h
  case hlt | ret => exact fun _ ho => nomatch ho
  case push | pop | call | prn | jmp | not | ldi | jeq | jne =>
    obtain ⟨_, h1, _⟩ := h
    exact wellFormed_of_regIndex₁ rfl h1
  case st | cmp =>
    obtain ⟨_, _, h1, h2, _⟩ := h
    exact wellFormed_of_regIndex₂ rfl h1 h2
  all_goals
    obtain ⟨_, _, _, h1, h2, _⟩ := h
    exact wellFormed_of_regIndex₂ rfl h1 h2

/-- An illegal register operand wins over every other check (decision D9), so it alone decides the outcome. -/
theorem exec_illegal {i : Instr} (s : State) (hw : ¬ i.WellFormed) :
    exec i s = .next (s.fatalStop .addressOutOfRange (some i.opcode)) := by
  obtain ⟨t, ht⟩ := exec_total i s
  rcases exec_cases ht with hc | ⟨k, rfl, ⟨rfl, _⟩ | ⟨hw', _⟩⟩
  · exact absurd (completes_wellFormed hc) hw
  · exact ht
  · exact absurd hw' hw

/-- Settles O15: `regIndex` by its two laws, the instructions by `exec_illegal`. -/
theorem illegalRegisterOperandStops : Obligations.IllegalRegisterOperandStops :=
  ⟨fun _ => ⟨regIndex_of_le, fun _ => regIndex_eq_ok.mpr rfl⟩, fun _ s hw => exec_illegal s hw⟩

/-! ### The table of rule R111 -/

theorem hlt_not_raises (s : State) (k : ErrorKind) : ¬ Raises .hlt s k
  | .inl ⟨_, hw⟩ => hw fun _ ho => nomatch ho
  | .inr ⟨_, ho⟩ => ho

/-- An operation-specific error is in the instruction's row of the table, and is not the index check's. -/
theorem operationRaises_kind {i : Instr} {s : State} {k : ErrorKind} (h : OperationRaises i s k) :
    k ∈ errorKinds i ∧ k ≠ .addressOutOfRange := by
  cases i <;> simp only [OperationRaises] at h
  case mod | push | pop | call | ret => obtain ⟨rfl, _⟩ := h; simp [errorKinds]

/-- An instruction with an illegal register operand names a register, so its row has AddressOutOfRange. -/
theorem addressOutOfRange_mem_errorKinds {i : Instr} (hw : ¬ i.WellFormed) : .addressOutOfRange ∈ errorKinds i := by
  cases i
  case hlt | ret => exact absurd (fun _ ho => nomatch ho) hw
  all_goals simp [errorKinds]

theorem raises_mem_errorKinds {i : Instr} {s : State} {k : ErrorKind} (h : Raises i s k) : k ∈ errorKinds i := by
  rcases h with ⟨rfl, hw⟩ | ⟨_, ho⟩
  · exact addressOutOfRange_mem_errorKinds hw
  · exact (operationRaises_kind ho).1

theorem raises_addressOutOfRange_iff {i : Instr} {s : State} {k : ErrorKind} (h : Raises i s k) :
    k = .addressOutOfRange ↔ ¬ i.WellFormed := by
  rcases h with ⟨rfl, hw⟩ | ⟨hw, ho⟩
  · exact iff_of_true rfl hw
  · exact iff_of_false (operationRaises_kind ho).2 (not_not_intro hw)

/-- Where an instruction leaves a running core FAULTED, it raised. -/
theorem exec_faulted {i : Instr} {s t : State} (hr : s.status = .running) (h : exec i s = .next t)
    (hf : t.status = .faulted) : ∃ k, t = s.fatalStop k (some i.opcode) ∧ Raises i s k := by
  rcases exec_cases h with hc | hraise
  · obtain ⟨_, _, ⟨_, hst⟩ | ⟨_, hst⟩⟩ := completes_status hc
    · cases hst.symm.trans hf
    · cases (hst.trans hr).symm.trans hf
  · exact hraise

/-- Settles O16: the record is that of the fatal stop, and its kind one that `Raises` allows. -/
theorem errorKindsOfEachInstruction : Obligations.ErrorKindsOfEachInstruction := by
  intro i s t hr h hf
  obtain ⟨k, rfl, hk⟩ := exec_faulted hr h hf
  exact ⟨_, rfl, raises_mem_errorKinds hk, raises_addressOutOfRange_iff hk⟩

/-! ### UnsupportedALUOperation (rule R76) -/

theorem unsupported_not_mem_errorKinds (i : Instr) : .unsupportedALUOperation ∉ errorKinds i := by
  cases i <;> simp [errorKinds]

/-- A step leaves the fault record, or writes one of a kind that an instruction or the fetch raises. -/
theorem step_fault {s t : State} (h : step s = .next t) :
    t.fault = s.fault ∨ ∃ k op, t = s.fatalStop k op ∧ k ≠ .unsupportedALUOperation := by
  rcases step_cases h with ⟨_, rfl⟩ | ⟨_, i, _, hx⟩ | ⟨_, k, op, hf, rfl⟩
  · exact .inl rfl
  · rcases exec_cases hx with hc | ⟨k, rfl, hk⟩
    · exact .inl (completes_status hc).1
    · refine .inr ⟨k, _, rfl, ?_⟩
      rintro rfl
      exact unsupported_not_mem_errorKinds i (raises_mem_errorKinds hk)
  · refine .inr ⟨k, op, rfl, ?_⟩
    rcases fetch_eq_error hf with ⟨_, rfl, _⟩ | ⟨_, _, ⟨rfl, _⟩ | ⟨rfl, _⟩⟩ <;> decide

/-- Settles O17: `step_fault` for the record. -/
theorem unsupportedAluOperationIsUnreachable : Obligations.UnsupportedAluOperationIsUnreachable := by
  refine ⟨fun _ _ => rfl, fun s t hs h => ?_⟩
  rcases step_fault h with hsame | ⟨k, op, rfl, hk⟩
  · rwa [hsame]
  · simpa using hk

end Sys2Proof.Machine
end

section
/-! The cycle (rules R62 to R64, R67, R68, R112): the instruction at the PC runs, a fetch beyond memory stops, and what
ends a run. -/

namespace Sys2Proof.Machine

/-! ### The fetch -/

theorem fetch_of_decode {s : State} {i : Instr} {rest : List Byte}
    (h : decode (codeBytes s.mem 3 s.pc.toNat) = .ok (i, rest)) : fetch s = .ok i := by
  rw [fetch, h]

/-- An encoding that stands whole in memory at the PC is what the fetch reads. -/
theorem fetch_encode {i : Instr} {s : State} (hfits : s.pc.toNat + (encode i).length ≤ 256)
    (hbytes : ∀ k b, (encode i)[k]? = some b → Memory.read s.mem (s.pc.toNat + k) = b) : fetch s = .ok i := by
  obtain ⟨rest, hrest⟩ := codeBytes_of_read (n := 3) (encode i) (encode_length_bounds i).2 hfits hbytes
  exact fetch_of_decode (by rw [hrest, decode_encode])

/-- Settles O5: the fetch reads the encoding that stands at the PC. -/
theorem stepRunsDecodedInstruction : Obligations.StepRunsDecodedInstruction :=
  fun _ _ hr hfits hbytes => step_of_fetch hr (fetch_encode hfits hbytes)

/-- The fatal stop of a fetch (step 7 of rule R62). -/
theorem step_of_fetch_error {s : State} {k : ErrorKind} {op : Option Byte} (hr : s.status = .running)
    (hf : fetch s = .error (k, op)) : step s = .next (s.fatalStop k op) := by
  rw [step_running hr, hf]

/-- Settles O7: the fetch fails by `fetch_out`, before it has an opcode. -/
theorem fetchBeyondMemoryStops : Obligations.FetchBeyondMemoryStops :=
  fun _ hr hpc => step_of_fetch_error hr (fetch_out hpc)

/-- A row takes nothing from fewer bytes than it needs. -/
theorem takeOperands_eq_none {row : RowShape} {bs : List Byte} (h : bs.length < row.operandCount) :
    row.takeOperands bs = none := by
  fun_cases row.takeOperands bs <;> simp [RowShape.operandCount] at h ⊢

/-- Rule R64: the operand bytes that stand in memory are fewer than the row needs. -/
theorem fetch_operand_out {s : State} {row : RowShape} (hpc : s.pc.toNat ≤ 255)
    (hd : decodeOpcode (Memory.read s.mem s.pc.toNat) = some row) (hout : 255 < s.pc.toNat + row.operandCount) :
    fetch s = .error (.addressOutOfRange, some (Memory.read s.mem s.pc.toNat)) := by
  have hshort : (codeBytes s.mem 2 (s.pc.toNat + 1)).length < row.operandCount := by
    rw [codeBytes_length]
    omega
  rw [fetch_in hpc, hd]
  simp only [takeOperands_eq_none hshort]

/-- Settles O8: the fetch fails by `fetch_operand_out`, so no handler runs. -/
theorem operandBeyondMemoryStops : Obligations.OperandBeyondMemoryStops :=
  fun _ _ hr hpc hd hout => step_of_fetch_error hr (fetch_operand_out hpc hd hout)

/-! ### Runs, and terminal states (rule R68) -/

theorem run_terminal {s : State} (h : s.status ≠ .running) (k : Nat) : core.run k s = .next s := by
  induction k with
  | zero => rfl
  | succ k ih => rw [run_succ, step_terminal h]; exact ih

/-- A run of `k + 1` steps is a step and a run of `k`: no step ends a run early (`step_total`). -/
theorem run_succ_eq_next {k : Nat} {s t : State} :
    core.run (k + 1) s = .next t ↔ ∃ u, step s = .next u ∧ core.run k u = .next t := by
  obtain ⟨u, hu⟩ := step_total s
  rw [run_succ, hu]
  simp

/-- Settles O10: `run_terminal`, an induction on the number of steps. -/
theorem terminalStatesAreAbsorbing : Obligations.TerminalStatesAreAbsorbing := fun _ k h => run_terminal h k

/-! ### The fatal stop (rule R112) -/

/-- The opcode of a fetched instruction is the cell at the PC. -/
theorem cell?_of_fetch {s : State} {i : Instr} (hf : fetch s = .ok i) :
    Memory.cell? s.mem s.pc.toNat = some i.opcode := by
  obtain ⟨hfits, hop⟩ := fetch_eq_ok hf
  have hlen := (encode_length_bounds i).1
  rw [Memory.cell?, if_pos (by omega), hop]

/-- The opcode that the fetch's error records is the cell at the PC, absent beyond memory. -/
theorem cell?_of_fetch_error {s : State} {k : ErrorKind} {op : Option Byte} (hf : fetch s = .error (k, op)) :
    Memory.cell? s.mem s.pc.toNat = op := by
  rcases fetch_eq_error hf with ⟨hpc, _, rfl⟩ | ⟨hpc, rfl, _⟩
  · exact if_neg (by omega)
  · exact if_pos hpc

/-- A step that leaves a running core FAULTED is the fatal stop, in the fetch or in the instruction. -/
theorem step_faulted {s t : State} (hr : s.status = .running) (h : step s = .next t) (hf : t.status = .faulted) :
    ∃ k, t = s.fatalStop k (Memory.cell? s.mem s.pc.toNat) := by
  rcases step_cases h with ⟨hn, _⟩ | ⟨_, i, hi, hx⟩ | ⟨_, k, op, he, rfl⟩
  · exact absurd hr hn
  · obtain ⟨k, rfl, _⟩ := exec_faulted hr hx hf
    exact ⟨k, by rw [cell?_of_fetch hi]⟩
  · exact ⟨k, by rw [cell?_of_fetch_error he]⟩

/-- Settles O14: the step is a fatal stop, and its state is terminal. -/
theorem fatalStopIsPrecise : Obligations.FatalStopIsPrecise :=
  fun _ _ hr h hf => ⟨step_faulted hr h hf, run_terminal (by simp [hf])⟩

/-! ### What ends a run (rules R19, R67, R107) -/

/-- HLT's byte at the PC is an HLT: it has no operand to miss. -/
theorem fetch_hlt_iff {s : State} :
    fetch s = .ok .hlt ↔ s.pc.toNat ≤ 255 ∧ Memory.read s.mem s.pc.toNat = 0x01 := by
  constructor
  · intro hf
    obtain ⟨hfits, hop⟩ := fetch_eq_ok hf
    exact ⟨by simp [encode, Instr.operandBytes] at hfits; omega, hop⟩
  · rintro ⟨hpc, hop⟩
    rw [fetch_in hpc, hop]
    rfl

/-- An instruction leaves a running core HALTED exactly when it is HLT. -/
theorem exec_halted_iff {i : Instr} {s t : State} (hr : s.status = .running) (h : exec i s = .next t) :
    t.status = .halted ↔ i = .hlt := by
  rcases exec_cases h with hc | ⟨k, rfl, hk⟩
  · obtain ⟨_, _, ⟨hi, hst⟩ | ⟨hi, hst⟩⟩ := completes_status hc
    · exact iff_of_true hst hi
    · exact iff_of_false (by simp [hst, hr]) hi
  · refine iff_of_false (by simp) ?_
    rintro rfl
    exact hlt_not_raises s k hk

theorem step_halted_iff {s t : State} (hr : s.status = .running) (h : step s = .next t) :
    t.status = .halted ↔ fetch s = .ok .hlt := by
  rcases step_cases h with ⟨hn, _⟩ | ⟨_, i, hi, hx⟩ | ⟨_, k, op, he, rfl⟩
  · exact absurd hr hn
  · rw [exec_halted_iff hr hx, hi, Except.ok.injEq]
  · simp [he]

/-- A step keeps "a fault record is present exactly when FAULTED" (rule R20). -/
theorem step_faulted_iff {s t : State} (hs : s.fault.isSome = true ↔ s.status = .faulted) (h : step s = .next t) :
    t.fault.isSome = true ↔ t.status = .faulted := by
  rcases step_cases h with ⟨_, rfl⟩ | ⟨hr, i, _, hx⟩ | ⟨_, k, op, _, rfl⟩
  · exact hs
  · rcases exec_cases hx with hc | ⟨k, rfl, _⟩
    · obtain ⟨hfault, _, ⟨_, hst⟩ | ⟨_, hst⟩⟩ := completes_status hc
      · rw [hfault, hs, hst, hr]
        simp
      · rw [hfault, hs, hst]
    · simp
  · simp

/-- Settles O11: HALTED by `step_halted_iff`, FAULTED by `step_faulted_iff`. -/
theorem runningEndsOnlyByHltOrError : Obligations.RunningEndsOnlyByHltOrError := by
  intro s t hr hnone h
  have hs : s.fault.isSome = true ↔ s.status = .faulted := by simp [hr, hnone]
  exact ⟨(step_halted_iff hr h).trans fetch_hlt_iff, (step_faulted_iff hs h).symm⟩

end Sys2Proof.Machine
end

section
/-! Results (rules R78 to R107): the whole next state of each instruction on legal register operands, and its own
errors. -/

namespace Sys2Proof.Machine

/-! ### The ALU instructions (rules R78 to R87) -/

/-- On legal registers the shared handler is the ALU and the write of its answer. -/
theorem aluBinary_regByte (sel : AluOp) (op : Byte) (ra rb : Fin 8) (s : State) :
    aluBinary sel op (regByte ra) (regByte rb) s =
      conclude s op (alu (some sel) (s.regs.get ra) (s.regs.get rb) >>= fun r => .ok ((s.setReg ra r).advance 2)) := by
  simp [aluBinary]

theorem aluBinary_regByte_ok {sel : AluOp} {ra rb : Fin 8} {s : State} {r : Byte} (op : Byte)
    (h : alu (some sel) (s.regs.get ra) (s.regs.get rb) = .ok r) :
    aluBinary sel op (regByte ra) (regByte rb) s = .next ((s.setReg ra r).advance 2) := by
  rw [aluBinary_regByte, h, ok_bind, conclude_ok]

/-- Settles O23: the rows ADD and MUL of the ALU's table. -/
theorem addMulResult : Obligations.AddMulResult :=
  fun _ _ _ => ⟨aluBinary_regByte_ok _ (alu_add _ _), aluBinary_regByte_ok _ (alu_mul _ _)⟩

/-- Settles O24: the rows AND, OR and XOR. -/
theorem andOrXorResult : Obligations.AndOrXorResult := by
  intro ra rb s
  obtain ⟨x, hx, hxbits⟩ := alu_and_bits (s.regs.get ra) (s.regs.get rb)
  obtain ⟨y, hy, hybits⟩ := alu_or_bits (s.regs.get ra) (s.regs.get rb)
  obtain ⟨z, hz, hzbits⟩ := alu_xor_bits (s.regs.get ra) (s.regs.get rb)
  exact ⟨⟨x, aluBinary_regByte_ok _ hx, hxbits⟩, ⟨y, aluBinary_regByte_ok _ hy, hybits⟩,
    ⟨z, aluBinary_regByte_ok _ hz, hzbits⟩⟩

/-- Settles O25: the rows SHL and SHR. -/
theorem shlShrResult : Obligations.ShlShrResult :=
  fun _ _ _ => ⟨aluBinary_regByte_ok _ (alu_shl _ _), aluBinary_regByte_ok _ (alu_shr _ _)⟩

/-- Settles O26: the row MOD away from divisor 0. -/
theorem modResult : Obligations.ModResult :=
  fun _ _ _ hdiv => aluBinary_regByte_ok _ (alu_mod fun hb => hdiv (congrArg BitVec.toNat hb))

theorem exec_mod_zero {rb : Fin 8} {s : State} (ra : Fin 8) (h : s.regs.get rb = 0) :
    exec (.mod (regByte ra) (regByte rb)) s = .next (s.fatalStop .divideByZero (some Opcode.mod)) := by
  change aluBinary .mod Opcode.mod (regByte ra) (regByte rb) s = _
  rw [aluBinary_regByte, h, alu_mod_zero, error_bind, conclude_error]

theorem not_eq_ofNat (x : Byte) : ~~~x = BitVec.ofNat 8 (255 - x.toNat) := by
  apply BitVec.eq_of_toNat_eq
  rw [BitVec.toNat_not, BitVec.toNat_ofNat]
  omega

theorem exec_not_regByte (ra : Fin 8) (s : State) :
    exec (.not (regByte ra)) s = .next ((s.setReg ra (~~~s.regs.get ra)).advance 1) := by
  simp [exec, execNot, alu, AluOp.apply]

/-- Settles O27: the complement is the subtraction from 255. -/
theorem notResult : Obligations.NotResult := by
  intro ra s
  rw [exec_not_regByte, not_eq_ofNat]
  rfl

/-! ### Data movement (rules R90 to R92) -/

theorem exec_ldi_regByte (ra : Fin 8) (imm : Byte) (s : State) :
    exec (.ldi (regByte ra) imm) s = .next ((s.setReg ra imm).advance 2) := by
  simp [exec, execLdi]

/-- An operand byte of 8 or more makes an instruction that names a register by it ill formed. -/
theorem not_wellFormed_of_le {i : Instr} {o : Byte} (ho : o ∈ i.registerOperands) (h : 8 ≤ o.toNat) :
    ¬ i.WellFormed :=
  (not_wellFormed_of_error ho (regIndex_of_le h)).2

/-- Settles O28: LDI's equation, and the index check. -/
theorem ldiLoadsImmediate : Obligations.LdiLoadsImmediate :=
  ⟨fun _ _ => rfl, exec_ldi_regByte,
    fun _ _ s h => exec_illegal s (not_wellFormed_of_le List.mem_cons_self h)⟩

theorem exec_st_regByte (ra rb : Fin 8) (s : State) :
    exec (.st (regByte ra) (regByte rb)) s =
      .next ((s.setMem (Memory.write s.mem (s.regs.get ra).toNat (s.regs.get rb))).advance 2) := by
  simp [exec, execSt, memWrite_byte]

/-- Settles O29: ST's equation with the read after its write, and the index checks. -/
theorem stStoresOneByte : Obligations.StStoresOneByte := by
  refine ⟨fun _ _ => rfl, fun ra rb s => ⟨_, exec_st_regByte ra rb s, fun a => Memory.read_write ..⟩, ?_⟩
  rintro o1 o2 s (h | h)
  · exact exec_illegal s (not_wellFormed_of_le (o := o1) (by simp [Instr.registerOperands]) h)
  · exact exec_illegal s (not_wellFormed_of_le (o := o2) (by simp [Instr.registerOperands]) h)

theorem exec_prn_regByte (ra : Fin 8) (s : State) :
    exec (.prn (regByte ra)) s = .next ((s.emit (s.regs.get ra)).advance 1) := by
  simp [exec, execPrn]

/-- Settles O30: PRN's equation. -/
theorem prnEmitsRegister : Obligations.PrnEmitsRegister := exec_prn_regByte

/-! ### The data stack (rules R95 to R97) -/

/-- Settles O31: `exec_push_regByte`, and above the floor SP - 1 is a subtraction of numbers. -/
theorem pushStoresThenDecrements : Obligations.PushStoresThenDecrements := by
  intro ra s hfloor
  have hdec : s.sp - 1 = BitVec.ofNat 8 ((s.regs.get 7).toNat - 1) := by
    rw [State.sp_eq]
    bv_omega
  refine ⟨(s.afterPush ra).mem, ?_, fun a => Memory.read_write ..⟩
  rw [exec_push_regByte ra hfloor, ← hdec]
  rfl

/-- Below the ceiling the byte above SP is an addition of numbers. -/
theorem above_sp {s : State} (h : s.sp.toNat < s.cfg.spInit.toNat) :
    (BitVec.ofNat 8 (s.sp.toNat + 1)).toNat = s.sp.toNat + 1 ∧ s.sp = BitVec.ofNat 8 (s.sp.toNat + 1) - 1 := by
  constructor <;> bv_omega

/-- Settles O32: `exec_pop_regByte` on the cell above SP. -/
theorem popIncrementsThenLoads : Obligations.PopIncrementsThenLoads := by
  intro ra s hceil
  rw [← State.sp_eq] at hceil ⊢
  obtain ⟨hnat, hsp⟩ := above_sp hceil
  exact exec_pop_regByte ra hsp (by omega) (by omega) (by rw [hnat])

theorem eq_regByte_of_regIndex {o : Byte} {r : Fin 8} (h : regIndex o = .ok r) : o = regByte r :=
  BitVec.eq_of_toNat_eq ((regIndex_eq_ok.mp h).trans (toNat_regByte r).symm)

/-- PUSH completes above the floor only, and moves SP down by one (rule R95). -/
theorem completes_push_sp {o1 : Byte} {s t : State} (h : Completes (.push o1) s t) :
    s.cfg.stackFloor.toNat < s.sp.toNat ∧ t.sp.toNat = s.sp.toNat - 1 := by
  obtain ⟨ra, _, htest, rfl⟩ := h
  refine ⟨by omega, ?_⟩
  rw [← State.afterPush, State.afterPush_sp]
  bv_omega

/-- POP into a register other than R7 completes below the ceiling only, and moves SP up by one (rule R96). -/
theorem completes_pop_sp {o1 : Byte} {s t : State} (h7 : o1 ≠ regByte 7) (h : Completes (.pop o1) s t) :
    s.sp.toNat < s.cfg.spInit.toNat ∧ t.sp.toNat = s.sp.toNat + 1 := by
  obtain ⟨ra, h1, htest, rfl⟩ := h
  have hra : ra ≠ spIndex := by
    rintro rfl
    exact h7 (eq_regByte_of_regIndex h1)
  refine ⟨by omega, ?_⟩
  rw [← State.afterPop, State.afterPop_sp _ _ _ hra]
  bv_omega

/-- Settles O34: a completed PUSH or POP moves SP by one away from the end its check excludes; a raise leaves it. -/
theorem dataStackStaysInRange : Obligations.DataStackStaysInRange := by
  intro o1 i s t hi hfloor hceil h
  rw [← State.sp_eq] at hfloor hceil ⊢
  rcases exec_cases h with hc | ⟨k, rfl, _⟩
  · rcases hi with rfl | ⟨rfl, h7⟩
    · obtain ⟨hroom, hsp⟩ := completes_push_sp hc
      omega
    · obtain ⟨hroom, hsp⟩ := completes_pop_sp h7 hc
      omega
  · exact ⟨hfloor, hceil⟩

/-! ### The errors of the operations (rules R86, R95, R96, R105, R106) -/

theorem exec_push_floor {s : State} (ra : Fin 8) (h : s.sp.toNat ≤ s.cfg.stackFloor.toNat) :
    exec (.push (regByte ra)) s = .next (s.fatalStop .stackOverflow (some Opcode.push)) := by
  have htest : ¬ (s.cfg.stackFloor.toNat : Int) ≤ (s.sp.toNat : Int) - 1 := by omega
  simp [exec, execPush, require, htest]

theorem exec_pop_ceiling {s : State} (ra : Fin 8) (h : s.cfg.spInit.toNat ≤ s.sp.toNat) :
    exec (.pop (regByte ra)) s = .next (s.fatalStop .stackUnderflow (some Opcode.pop)) := by
  have htest : ¬ (s.sp.toNat : Int) + 1 ≤ (s.cfg.spInit.toNat : Int) := by omega
  simp [exec, execPop, require, htest]

/-- The CallStack is full exactly at its finite capacity. -/
theorem callStackFull_eq_true_iff {s : State} : s.callStackFull = true ↔ s.cfg.callStackDepth = some s.cs.length := by
  unfold State.callStackFull
  split
  · rename_i hd; simp [hd]
  · rename_i d hd
    rw [hd, beq_iff_eq, Option.some.injEq, eq_comm]

theorem exec_call_full {s : State} (ra : Fin 8) (h : s.cfg.callStackDepth = some s.cs.length) :
    exec (.call (regByte ra)) s = .next (s.fatalStop .stackOverflow (some Opcode.call)) := by
  simp [exec, execCall, require, callStackFull_eq_true_iff.mpr h]

theorem exec_ret_empty {s : State} (h : s.cs = []) :
    exec .ret s = .next (s.fatalStop .callStackUnderflow (some Opcode.ret)) := by
  simp [exec, execRet, h]

/-- Settles O18: one equation for each of the five checks. -/
theorem operationErrorsStop : Obligations.OperationErrorsStop :=
  fun ra _ _ => ⟨exec_mod_zero ra, exec_push_floor ra, exec_pop_ceiling ra, exec_call_full ra, exec_ret_empty⟩

/-! ### Compare and control transfer (rules R100 to R109) -/

/-- Equal bytes are equal numbers, so E too is a comparison of numbers. -/
theorem Flags.compare_eq (a b : Byte) : Flags.compare a b =
    { e := decide (a.toNat = b.toNat), l := decide (a.toNat < b.toNat), g := decide (b.toNat < a.toNat) } := by
  simp only [Flags.compare, beq_eq_decide, BitVec.toNat_inj]

/-- Settles O35: CMP's equation, with the flags on numbers. -/
theorem cmpSetsFlags : Obligations.CmpSetsFlags := by
  intro ra rb s
  rw [exec_cmp_regByte, Flags.compare_eq]
  rfl

theorem exec_jmp_regByte (ra : Fin 8) (s : State) :
    exec (.jmp (regByte ra)) s = .next (s.redirect (BitVec.ofNat 9 (s.regs.get ra).toNat)) := by
  simp [exec, execJmp, zext9]

/-- Settles O36: JMP's equation, and the index check. -/
theorem jmpRedirects : Obligations.JmpRedirects :=
  ⟨fun _ => rfl, exec_jmp_regByte, fun _ s h => exec_illegal s (not_wellFormed_of_le List.mem_cons_self h)⟩

theorem branchIf_regByte (taken : Bool) (op : Byte) (ra : Fin 8) (s : State) :
    branchIf taken op (regByte ra) s =
      .next { s with pc := if taken then BitVec.ofNat 9 (s.regs.get ra).toNat else s.pc + 2 } := by
  cases taken <;> simp [branchIf, zext9, State.redirect, State.advance]

/-- Settles O37: the branch that JEQ and JNE share, with E and with its negation; and the index check. -/
theorem jeqJneBranchOnEqual : Obligations.JeqJneBranchOnEqual := by
  refine ⟨fun ra s => ⟨branchIf_regByte .., ?_⟩, fun o1 s h =>
    ⟨exec_illegal s (not_wellFormed_of_le List.mem_cons_self h),
      exec_illegal s (not_wellFormed_of_le List.mem_cons_self h)⟩⟩
  refine (branchIf_regByte (!s.flags.e) Opcode.jne ra s).trans ?_
  cases s.flags.e <;> rfl

theorem exec_call_regByte {s : State} (ra : Fin 8) (h : s.cfg.callStackDepth ≠ some s.cs.length) :
    exec (.call (regByte ra)) s =
      .next ((s.pushCall (s.pc + 2)).redirect (BitVec.ofNat 9 (s.regs.get ra).toNat)) := by
  have hroom : s.callStackFull = false := Bool.eq_false_iff.mpr (h ∘ callStackFull_eq_true_iff.mp)
  simp [exec, execCall, require, hroom, zext9]

/-- Settles O38: CALL's equation where the CallStack has room. -/
theorem callPushesReturnAddress : Obligations.CallPushesReturnAddress := fun ra _ => exec_call_regByte ra

theorem exec_ret_cons {s : State} {top : CodeAddr} {below : List CodeAddr} (h : s.cs = top :: below) :
    exec .ret s = .next ((s.setCalls below).redirect top) := by
  simp [exec, execRet, h]

/-- Settles O39: RET's two equations. -/
theorem retPopsReturnAddress : Obligations.RetPopsReturnAddress :=
  ⟨rfl, fun _ _ _ => exec_ret_cons, fun _ => exec_ret_empty⟩

/-- Settles O40: HLT's equation, and its state is terminal. -/
theorem hltHalts : Obligations.HltHalts := by
  refine ⟨rfl, fun _ => rfl, fun s t n h => ?_⟩
  cases h
  exact run_terminal (by simp) n

/-- Settles O41: the top entry is the one the CALL pushed. -/
theorem returnResumesAfterItsCall : Obligations.ReturnResumesAfterItsCall := by
  intro ra s u v hroom hcall hcs
  rw [exec_call_regByte ra hroom] at hcall
  cases hcall
  exact ⟨_, exec_ret_cons hcs, rfl, rfl, rfl, rfl⟩

end Sys2Proof.Machine
end

section
/-! Frames (rules R66, R112): what each instruction leaves unchanged, said once over all 21. -/

namespace Sys2Proof.Machine

/-! ### Which registers an instruction writes -/

/-- The numbers of the registers a completed instruction may write: its first operand's for LDI, NOT and the ALU
instructions (decisions D2, D3), R7 for PUSH, both for POP, none for the others. -/
def destinations : Instr → List Nat
  | .push _ => [7]
  | .pop o1 => [7, o1.toNat]
  | .not o1 | .ldi o1 _ | .add o1 _ | .mul o1 _ | .mod o1 _ | .and o1 _ | .or o1 _ | .xor o1 _ | .shl o1 _
  | .shr o1 _ => [o1.toNat]
  | .hlt | .ret | .prn _ | .call _ | .jmp _ | .jeq _ | .jne _ | .st _ _ | .cmp _ _ => []

/-- A write to the register that an operand byte names leaves the registers of other numbers. -/
theorem get_set_of_regIndex {o : Byte} {ra r : Fin 8} (x : Regs) (v : Byte) (h : regIndex o = .ok ra)
    (hr : r.val ≠ o.toNat) : (x.set ra v).get r = x.get r := by
  refine Regs.get_set_ne x v ?_
  rintro rfl
  exact hr (regIndex_eq_ok.mp h).symm

theorem get_set_spIndex {r : Fin 8} (x : Regs) (v : Byte) (hr : r.val ≠ 7) : (x.set spIndex v).get r = x.get r := by
  refine Regs.get_set_ne x v ?_
  rintro rfl
  exact hr rfl

theorem completes_regs {i : Instr} {s t : State} (h : Completes i s t) {r : Fin 8}
    (hr : r.val ∉ destinations i) : t.regs.get r = s.regs.get r := by
  cases i <;> simp only [Completes, AluCompletes, BranchCompletes] at h <;>
    simp only [destinations, List.mem_cons, List.not_mem_nil, or_false, not_or] at hr
  case hlt => subst h; rfl
  case ret | call => obtain ⟨_, _, _, rfl⟩ := h; rfl
  case prn | jmp => obtain ⟨_, _, rfl⟩ := h; rfl
  case jeq | jne => obtain ⟨_, _, rfl⟩ := h; split <;> rfl
  case st | cmp => obtain ⟨_, _, _, _, rfl⟩ := h; rfl
  case push => obtain ⟨_, _, _, rfl⟩ := h; exact get_set_spIndex s.regs _ hr
  case pop =>
    obtain ⟨_, h1, _, rfl⟩ := h
    exact (get_set_of_regIndex _ _ h1 hr.2).trans (get_set_spIndex s.regs _ hr.1)
  case not | ldi => obtain ⟨_, h1, rfl⟩ := h; exact get_set_of_regIndex s.regs _ h1 hr
  all_goals
    obtain ⟨_, _, _, h1, _, _, rfl⟩ := h
    exact get_set_of_regIndex s.regs _ h1 hr

/-! ### Memory, CallStack, output -/

/-- Memory is written by ST and PUSH only, the CallStack by CALL and RET only, the output by PRN only (rule R66). -/
structure WritesOnlyItsOwn (i : Instr) (s t : State) : Prop where
  mem : t.mem = s.mem ∨ (∃ o1 o2, i = .st o1 o2) ∨ ∃ o1, i = .push o1
  cs : t.cs = s.cs ∨ (∃ o1, i = .call o1) ∨ i = .ret
  out : t.out = s.out ∨ ∃ o1, i = .prn o1

theorem completes_writes {i : Instr} {s t : State} (h : Completes i s t) : WritesOnlyItsOwn i s t := by
  cases i <;> simp only [Completes, AluCompletes, BranchCompletes] at h
  case hlt => subst h; constructor <;> simp
  case ret | call | push | pop => obtain ⟨_, _, _, rfl⟩ := h; constructor <;> simp
  case prn | jmp | not | ldi => obtain ⟨_, _, rfl⟩ := h; constructor <;> simp
  case jeq | jne => obtain ⟨_, _, rfl⟩ := h; split <;> constructor <;> simp
  case st | cmp => obtain ⟨_, _, _, _, rfl⟩ := h; constructor <;> simp
  all_goals
    obtain ⟨_, _, _, _, _, _, rfl⟩ := h
    constructor <;> simp

/-! ### The same over every outcome: the fatal stop changes none of these -/

theorem exec_regs {i : Instr} {s t : State} (h : exec i s = .next t) {r : Fin 8} (hr : r.val ∉ destinations i) :
    t.regs.get r = s.regs.get r := by
  rcases exec_cases h with hc | ⟨k, rfl, _⟩
  · exact completes_regs hc hr
  · rfl

theorem exec_writes {i : Instr} {s t : State} (h : exec i s = .next t) : WritesOnlyItsOwn i s t := by
  rcases exec_cases h with hc | ⟨k, rfl, _⟩
  · exact completes_writes hc
  · exact ⟨.inl rfl, .inl rfl, .inl rfl⟩

theorem exec_mem {i : Instr} {s t : State} (h : exec i s = .next t) (hst : ∀ o1 o2, i ≠ .st o1 o2)
    (hpush : ∀ o1, i ≠ .push o1) : t.mem = s.mem :=
  (exec_writes h).mem.resolve_right (by simp [hst, hpush])

theorem exec_cs {i : Instr} {s t : State} (h : exec i s = .next t) (hcall : ∀ o1, i ≠ .call o1)
    (hret : i ≠ .ret) : t.cs = s.cs :=
  (exec_writes h).cs.resolve_right (by simp [hcall, hret])

theorem exec_out {i : Instr} {s t : State} (h : exec i s = .next t) (hprn : ∀ o1, i ≠ .prn o1) : t.out = s.out :=
  (exec_writes h).out.resolve_right (by simp [hprn])

theorem exec_cfg {i : Instr} {s t : State} (h : exec i s = .next t) : t.cfg = s.cfg := by
  rcases exec_cases h with hc | ⟨k, rfl, _⟩
  · exact (completes_status hc).2.1
  · rfl

/-- The status and the record stay, HLT's status apart, or the outcome is the fatal stop on the state before. -/
theorem exec_status {i : Instr} {s t : State} (h : exec i s = .next t) :
    ((i = .hlt ∨ t.status = s.status) ∧ t.fault = s.fault) ∨ ∃ k, t = s.fatalStop k (some i.opcode) := by
  rcases exec_cases h with hc | ⟨k, rfl, _⟩
  · obtain ⟨hfault, _, ⟨hi, _⟩ | ⟨_, hst⟩⟩ := completes_status hc
    · exact .inl ⟨.inl hi, hfault⟩
    · exact .inl ⟨.inr hst, hfault⟩
  · exact .inr ⟨k, rfl⟩

theorem exec_status_of_ne_hlt {i : Instr} {s t : State} (h : exec i s = .next t) (hi : i ≠ .hlt) :
    (t.status = s.status ∧ t.fault = s.fault) ∨ ∃ k, t = s.fatalStop k (some i.opcode) :=
  (exec_status h).imp_left fun ⟨hst, hfault⟩ => ⟨hst.resolve_left hi, hfault⟩

/-! ### The frames of the statements -/

/-- Settles O47: `exec_writes`, with `exec_flags` for the flags and `exec_cfg`. -/
theorem handlersTouchOnlyTheirOwn : Obligations.HandlersTouchOnlyTheirOwn := by
  intro i s t h
  obtain ⟨hmem, hcs, hout⟩ := exec_writes h
  refine ⟨fun ⟨a, ha⟩ => hmem.resolve_left fun he => ha (by rw [he]), fun hf => ?_, hcs.resolve_left,
    hout.resolve_left, exec_cfg h⟩
  by_contra hcmp
  exact hf (exec_flags (fun o1 o2 hi => hcmp ⟨o1, o2, hi⟩) h)

/-- Settles O42: the ten have the one destination their first operand names. -/
theorem registerWritersFrame : Obligations.RegisterWritersFrame := by
  intro o1 o2 i s t hi h
  have hdest : destinations i = [o1.toNat] := by
    simp only [List.mem_cons, List.not_mem_nil, or_false] at hi
    rcases hi with rfl | rfl | rfl | rfl | rfl | rfl | rfl | rfl | rfl | rfl <;> rfl
  have hmem : t.mem = s.mem := exec_mem h (by rintro _ _ rfl; simp at hi) (by rintro _ rfl; simp at hi)
  exact ⟨fun r hr => exec_regs h (by simpa [hdest] using hr), fun a => by rw [hmem],
    exec_flags (by rintro _ _ rfl; simp at hi) h,
    exec_cs h (by rintro _ rfl; simp at hi) (by rintro rfl; simp at hi),
    exec_out h (by rintro _ rfl; simp at hi), exec_cfg h, exec_status_of_ne_hlt h (by rintro rfl; simp at hi)⟩

/-- What ST does to memory: one cell where it completes, none where it does not. -/
theorem exec_st_mem {o1 o2 : Byte} {s t : State} (h : exec (.st o1 o2) s = .next t) :
    t.mem = s.mem ∨ ∃ ra v, regIndex o1 = .ok ra ∧ t.mem = Memory.write s.mem (s.regs.get ra).toNat v := by
  rcases exec_cases h with ⟨ra, rb, h1, _, rfl⟩ | ⟨k, rfl, _⟩
  · exact .inr ⟨ra, _, h1, rfl⟩
  · exact .inl rfl

/-- Settles O43: the cell by `exec_st_mem`; an ill-formed ST is the fatal stop. -/
theorem stFrame : Obligations.StFrame := by
  intro o1 o2 s t h
  refine ⟨Regs.ext_get fun r => exec_regs h (List.not_mem_nil), fun ra h1 a ha => ?_, fun hw a => ?_,
    exec_flags (by simp) h, exec_cs h (by simp) (by simp), exec_out h (by simp), exec_cfg h,
    exec_status_of_ne_hlt h (by simp)⟩
  · rcases exec_st_mem h with hm | ⟨rb, v, h2, hm⟩
    · rw [hm]
    · obtain rfl : ra = rb := Except.ok.inj (h1.symm.trans h2)
      rw [hm, Memory.read_write_ne _ _ ha]
  · cases (exec_illegal s hw).symm.trans h
    rfl

theorem exec_push_mem {o1 : Byte} {s t : State} (h : exec (.push o1) s = .next t) :
    t.mem = s.mem ∨ ∃ v, t.mem = Memory.write s.mem s.sp.toNat v := by
  rcases exec_cases h with ⟨ra, _, _, rfl⟩ | ⟨k, rfl, _⟩
  · exact .inr ⟨_, rfl⟩
  · exact .inl rfl

/-- Settles O44: the one destination is R7, the cell is that of `exec_push_mem`. -/
theorem pushFrame : Obligations.PushFrame := by
  intro o1 s t h
  refine ⟨fun r hr => exec_regs h ?_, fun a ha => ?_, exec_flags (by simp) h, exec_cs h (by simp) (by simp),
    exec_out h (by simp), exec_cfg h, exec_status_of_ne_hlt h (by simp)⟩
  · rw [destinations, List.mem_singleton]
    exact fun hv => hr (Fin.ext hv)
  · rcases exec_push_mem h with hm | ⟨v, hm⟩
    · rw [hm]
    · rw [hm, Memory.read_write_ne _ _ ha]

/-- Settles O45: the destinations are R7 and the operand's register. -/
theorem popFrame : Obligations.PopFrame := by
  intro o1 s t h
  refine ⟨fun r h7 hr => exec_regs h ?_, fun a => ?_, exec_flags (by simp) h, exec_cs h (by simp) (by simp),
    exec_out h (by simp), exec_cfg h, exec_status_of_ne_hlt h (by simp)⟩
  · rw [destinations, List.mem_pair, not_or]
    exact ⟨fun hv => h7 (Fin.ext hv), hr⟩
  · rw [exec_mem h (by simp) (by simp)]

/-- Settles O46: the eight have no destination; each exception is the one its frame lemma makes. -/
theorem controlAndOutputFrame : Obligations.ControlAndOutputFrame := by
  intro o1 o2 i s t hi h
  have hdest : destinations i = [] := by
    simp only [List.mem_cons, List.not_mem_nil, or_false] at hi
    rcases hi with rfl | rfl | rfl | rfl | rfl | rfl | rfl | rfl <;> rfl
  have hmem : t.mem = s.mem := exec_mem h (by rintro _ _ rfl; simp at hi) (by rintro _ rfl; simp at hi)
  refine ⟨fun r => exec_regs h (by simp [hdest]), fun a => by rw [hmem], fun hcmp => ?_, fun hcall hret => ?_,
    fun hprn => ?_, exec_cfg h, exec_status h⟩
  · refine exec_flags ?_ h
    rintro a b rfl
    exact hcmp (by simpa using hi)
  · refine exec_cs h ?_ hret
    rintro a rfl
    exact hcall (by simpa using hi)
  · refine exec_out h ?_
    rintro a rfl
    exact hprn (by simpa using hi)

end Sys2Proof.Machine
end

section
/-! The flags over steps and runs (rules R16, R17): L and G are never observed, and how many flags are set. -/

namespace Sys2Proof.Machine

/-! ### States that differ in L and G -/

/-- L and G alone are replaced: a state with its own E and other L and G. -/
theorem State.withLessGreater_eq_setFlags (s : State) (l g : Bool) :
    s.withLessGreater l g = s.setFlags { s.flags with l := l, g := g } := rfl

theorem State.withLessGreater_self (s : State) : s.withLessGreater s.flags.l s.flags.g = s := rfl

theorem State.fatalStop_withLessGreater (s : State) (l g : Bool) (k : ErrorKind) (op : Option Byte) :
    (s.withLessGreater l g).fatalStop k op = (s.fatalStop k op).withLessGreater l g := rfl

/-- The fetch reads the PC and memory. -/
theorem fetch_withLessGreater (s : State) (l g : Bool) : fetch (s.withLessGreater l g) = fetch s := rfl

/-- CMP writes all three flags or none: where it completes the two outcomes are the same state, where it raises they
still differ in L and G only. -/
theorem exec_cmp_withLessGreater {o1 o2 : Byte} {s t : State} (l g : Bool) (h : exec (.cmp o1 o2) s = .next t) :
    ∃ l' g', exec (.cmp o1 o2) (s.withLessGreater l g) = .next (t.withLessGreater l' g') := by
  by_cases hw : (Instr.cmp o1 o2).WellFormed
  · obtain ⟨ra, rfl⟩ := exists_regByte_of_lt (hw o1 (by simp [Instr.registerOperands]))
    obtain ⟨rb, rfl⟩ := exists_regByte_of_lt (hw o2 (by simp [Instr.registerOperands]))
    refine ⟨t.flags.l, t.flags.g, ?_⟩
    rw [State.withLessGreater_eq_setFlags, exec_cmp_setFlags, State.withLessGreater_self, h]
  · cases (exec_illegal s hw).symm.trans h
    exact ⟨l, g, exec_illegal _ hw⟩

/-- No instruction reads L or G. -/
theorem exec_withLessGreater {i : Instr} {s t : State} (l g : Bool) (h : exec i s = .next t) :
    ∃ l' g', exec i (s.withLessGreater l g) = .next (t.withLessGreater l' g') := by
  by_cases hcmp : ∃ o1 o2, i = .cmp o1 o2
  · obtain ⟨o1, o2, rfl⟩ := hcmp
    exact exec_cmp_withLessGreater l g h
  · simp only [not_exists] at hcmp
    refine ⟨l, g, ?_⟩
    rw [State.withLessGreater_eq_setFlags, State.withLessGreater_eq_setFlags, exec_flags hcmp h]
    exact exec_setFlags hcmp (.inr rfl) h

theorem step_withLessGreater {s t : State} (l g : Bool) (h : step s = .next t) :
    ∃ l' g', step (s.withLessGreater l g) = .next (t.withLessGreater l' g') := by
  rcases step_cases h with ⟨hn, rfl⟩ | ⟨hr, i, hi, hx⟩ | ⟨hr, k, op, he, rfl⟩
  · exact ⟨l, g, step_terminal hn⟩
  · rw [step_of_fetch (s := s.withLessGreater l g) hr hi]
    exact exec_withLessGreater l g hx
  · exact ⟨l, g, step_of_fetch_error (s := s.withLessGreater l g) hr he⟩

/-- Settles O49: an induction on the length, for every L and G of the second run. -/
theorem lessAndGreaterAreNeverObserved : Obligations.LessAndGreaterAreNeverObserved := by
  intro k
  induction k with
  | zero =>
    intro s t l g h
    cases h
    exact ⟨l, g, rfl⟩
  | succ k ih =>
    intro s t l g h
    obtain ⟨u, hstep, hrun⟩ := run_succ_eq_next.mp h
    obtain ⟨lu, gu, hstep'⟩ := step_withLessGreater l g hstep
    obtain ⟨lt, gt, hrun'⟩ := ih u t lu gu hrun
    exact ⟨lt, gt, run_succ_eq_next.mpr ⟨_, hstep', hrun'⟩⟩

/-! ### How many flags are set -/

/-- The comparison sets exactly one flag: the order of numbers is total and strict. -/
theorem Flags.exactlyOne_compare (a b : Byte) : (Flags.compare a b).ExactlyOne := by
  rw [Flags.compare_eq]
  simp only [Flags.ExactlyOne, Flags.AtMostOne, decide_eq_true_eq]
  omega

theorem Flags.atMostOne_compare (a b : Byte) : (Flags.compare a b).AtMostOne := (Flags.exactlyOne_compare a b).1

theorem Flags.compare_e (a b : Byte) : (Flags.compare a b).e = true ↔ a = b := beq_iff_eq

/-- An instruction leaves the flags or writes those of a comparison. -/
theorem exec_flags_cases {i : Instr} {s t : State} (h : exec i s = .next t) :
    t.flags = s.flags ∨ ∃ a b, t.flags = Flags.compare a b := by
  by_cases hcmp : ∃ o1 o2, i = .cmp o1 o2
  · obtain ⟨o1, o2, rfl⟩ := hcmp
    rcases exec_cases h with ⟨ra, rb, _, _, rfl⟩ | ⟨k, rfl, _⟩
    · exact .inr ⟨_, _, rfl⟩
    · exact .inl rfl
  · simp only [not_exists] at hcmp
    exact .inl (exec_flags hcmp h)

/-- A property of the flags that every comparison has is kept by every step. -/
theorem step_keeps_flags {P : Flags → Prop} (hP : ∀ a b, P (Flags.compare a b)) {s t : State} (hs : P s.flags)
    (h : step s = .next t) : P t.flags := by
  rcases step_cases h with ⟨_, rfl⟩ | ⟨_, i, _, hx⟩ | ⟨_, k, op, _, rfl⟩
  · exact hs
  · rcases exec_flags_cases hx with hf | ⟨a, b, hf⟩
    · rwa [hf]
    · rw [hf]
      exact hP a b
  · exact hs

/-- Settles O50: every comparison sets exactly one flag, so both counts are kept. -/
theorem flagInvariant : Obligations.FlagInvariant := by
  refine ⟨rfl, fun _ _ => step_keeps_flags Flags.atMostOne_compare, fun ra rb s t h => ?_, fun k s t hs h => ?_⟩
  · rw [exec_cmp_regByte] at h
    cases h
    exact ⟨Flags.exactlyOne_compare _ _, Flags.compare_e _ _⟩
  · exact run_induct (P := fun u => u.flags.ExactlyOne)
      (fun _ _ => step_keeps_flags Flags.exactlyOne_compare) hs h

end Sys2Proof.Machine
end

section
/-! The invariant of rule R26, kept by every step and so by every run from a launch; and what a run adds to the CallStack
and to the output. -/

namespace Sys2Proof.Machine

/-! ### A field of the invariant at a time -/

theorem jumpTarget_le {o1 : Byte} {s : State} {a : CodeAddr} (h : jumpTarget o1 s = some a) : a.toNat ≤ 256 := by
  unfold jumpTarget at h
  split at h
  · cases h
    bv_omega
  · cases h

/-- A redirect goes to a register's value or to a CallStack entry (rules R13, R18, R109). -/
theorem redirectTarget_le {i : Instr} {s : State} {a : CodeAddr} (hs : ∀ b ∈ s.cs, b.toNat ≤ 256)
    (h : redirectTarget i s = some a) : a.toNat ≤ 256 := by
  cases i <;> simp only [redirectTarget, reduceCtorEq, ite_eq_iff, and_false, false_or, or_false] at h
  case ret => exact hs a (List.mem_of_mem_head? h)
  case jmp | call => exact jumpTarget_le h
  case jeq | jne => exact jumpTarget_le h.2

/-- The PC after a fetched instruction does not pass 256. -/
theorem exec_pc_le {i : Instr} {s t : State} (hs : Inv s) (hr : s.status = .running) (hf : fetch s = .ok i)
    (h : exec i s = .next t) : t.pc.toNat ≤ 256 := by
  rcases exec_pc hr h with ⟨_, hpc⟩ | ⟨_, hpc⟩ <;> rw [hpc]
  · cases hred : redirectTarget i s with
    | none =>
      rw [Option.getD_none, fetch_advance_toNat hf]
      exact (fetch_eq_ok hf).1
    | some a => exact redirectTarget_le (fun b hb => (hs.cs_range b hb).2) hred
  · exact hs.pc_le

theorem completes_mem_wf {i : Instr} {s t : State} (hs : Memory.wf s.mem) (h : Completes i s t) : Memory.wf t.mem := by
  rcases (completes_writes h).mem with hm | ⟨o1, o2, rfl⟩ | ⟨o1, rfl⟩
  · rwa [hm]
  · obtain ⟨ra, rb, _, _, rfl⟩ := h
    exact Memory.wf_write _ (s.regs.get ra).isLt hs
  · obtain ⟨ra, _, _, rfl⟩ := h
    exact Memory.wf_write _ s.sp.isLt hs

/-- A completed instruction leaves the CallStack, or is a CALL that pushed, or a RET that popped. -/
theorem completes_cs {i : Instr} {s t : State} (h : Completes i s t) :
    (∃ o1, i = .call o1 ∧ s.callStackFull = false ∧ t.cs = (s.pc + 2) :: s.cs) ∨
    (i = .ret ∧ ∃ top, s.cs = top :: t.cs) ∨
    ((∀ o1, i ≠ .call o1) ∧ i ≠ .ret ∧ t.cs = s.cs) := by
  by_cases hcall : ∃ o1, i = .call o1
  · obtain ⟨o1, rfl⟩ := hcall
    obtain ⟨_, _, hroom, rfl⟩ := h
    exact .inl ⟨o1, rfl, hroom, rfl⟩
  · by_cases hret : i = .ret
    · subst hret
      obtain ⟨top, below, hcs, rfl⟩ := h
      exact .inr (.inl ⟨rfl, top, hcs⟩)
    · rw [not_exists] at hcall
      exact .inr (.inr ⟨hcall, hret, (completes_writes h).cs.resolve_right (by simp [hcall, hret])⟩)

/-- The return address of a fetched CALL is the address after it. -/
theorem return_address_range {o1 : Byte} {s : State} (hf : fetch s = .ok (.call o1)) :
    2 ≤ (s.pc + 2).toNat ∧ (s.pc + 2).toNat ≤ 256 := by
  obtain ⟨hfits, _⟩ := fetch_eq_ok hf
  have hnat : (s.pc + 2).toNat = s.pc.toNat + 2 := fetch_advance_toNat hf
  simp only [encode, Instr.operandBytes, List.length_cons, List.length_nil] at hfits
  omega

theorem completes_cs_range {i : Instr} {s t : State} (hs : ∀ a ∈ s.cs, 2 ≤ a.toNat ∧ a.toNat ≤ 256)
    (hf : fetch s = .ok i) (h : Completes i s t) : ∀ a ∈ t.cs, 2 ≤ a.toNat ∧ a.toNat ≤ 256 := by
  rcases completes_cs h with ⟨o1, rfl, _, hcs⟩ | ⟨rfl, top, hcs⟩ | ⟨_, _, hcs⟩
  · rw [hcs, List.forall_mem_cons]
    exact ⟨return_address_range hf, hs⟩
  · rw [hcs, List.forall_mem_cons] at hs
    exact hs.2
  · rwa [hcs]

/-- CALL completes below the capacity only, so it cannot pass it (decision D7). -/
theorem completes_cs_depth {i : Instr} {s t : State} (hs : ∀ d ∈ s.cfg.callStackDepth, s.cs.length ≤ d)
    (h : Completes i s t) : ∀ d ∈ s.cfg.callStackDepth, t.cs.length ≤ d := by
  intro d hd
  have hle := hs d hd
  rcases completes_cs h with ⟨o1, rfl, hroom, hcs⟩ | ⟨rfl, top, hcs⟩ | ⟨_, _, hcs⟩
  · have hne : s.cs.length ≠ d := by
      rintro rfl
      exact Bool.eq_false_iff.mp hroom (callStackFull_eq_true_iff.mpr hd)
    rw [hcs, List.length_cons]
    omega
  · rw [hcs, List.length_cons] at hle
    omega
  · rwa [hcs]

/-! ### Steps and runs -/

/-- The two fields a fatal stop writes are consistent, and the others it keeps. -/
theorem Inv.fatalStop {s : State} (hs : Inv s) (k : ErrorKind) (op : Option Byte) : Inv (s.fatalStop k op) :=
  { hs with fault_iff := by simp }

/-- The completed instruction a field at a time; a raise and an error of the fetch by `Inv.fatalStop`. -/
theorem step_keeps_inv {s t : State} (hs : Inv s) (h : step s = .next t) : Inv t := by
  rcases step_cases h with ⟨_, rfl⟩ | ⟨hr, i, hf, hx⟩ | ⟨_, k, op, _, rfl⟩
  · exact hs
  · have hcfg : t.cfg = s.cfg := exec_cfg hx
    rcases exec_cases hx with hc | ⟨k, rfl, _⟩
    · exact
        { pc_le := exec_pc_le hs hr hf hx
          mem_wf := completes_mem_wf hs.mem_wf hc
          flags_atMostOne := step_keeps_flags Flags.atMostOne_compare hs.flags_atMostOne h
          cs_range := completes_cs_range hs.cs_range hf hc
          cs_depth := by rw [hcfg]; exact completes_cs_depth hs.cs_depth hc
          fault_iff := step_faulted_iff hs.fault_iff h
          cfg_wf := by rw [hcfg]; exact hs.cfg_wf }
    · exact hs.fatalStop k _
  · exact hs.fatalStop k op

/-- Settles O51: `step_keeps_inv`. -/
theorem stepKeepsInvariant : Obligations.StepKeepsInvariant := fun _ _ => step_keeps_inv

/-- The state after reset, with any canonical contents of memory (rule R130). -/
theorem inv_resetWith {c : Config} {m : Memory} (hc : c.wf) (hm : Memory.wf m) :
    Inv ((State.resetWith c).setMem m) :=
  { pc_le := Nat.zero_le _
    mem_wf := hm
    flags_atMostOne := by simp
    cs_range := by simp
    cs_depth := by simp
    fault_iff := by simp
    cfg_wf := hc }

/-- Settles O52: the default configuration is legal, and no cell is listed. -/
theorem resetMeetsInvariant : Obligations.ResetMeetsInvariant :=
  inv_resetWith (c := Config.default) ⟨by decide, by simp [Config.default]⟩ Memory.wf_nil

/-- A launch that is not refused has a legal configuration, an image that fits, and this state. -/
theorem launch_eq_next {c : Config} {image : List Byte} {memRest : Nat → Byte} {s : State}
    (h : State.launch c image memRest = .next s) :
    c.wf ∧ image.length ≤ 256 ∧
      s = (State.resetWith c).setMem (Memory.tabulate (fun a => image.getD a (memRest a)) 256 0) := by
  unfold State.launch at h
  split at h
  · rename_i hc
    split at h
    · rename_i hlen
      cases h
      exact ⟨hc, hlen, rfl⟩
    · cases h
  · cases h

/-- Settles O53: the launch state meets the invariant, and every step keeps it. -/
theorem everyReachableStateMeetsInvariant : Obligations.EveryReachableStateMeetsInvariant := by
  intro c image memRest s t k hlaunch hrun
  obtain ⟨hc, _, rfl⟩ := launch_eq_next hlaunch
  exact run_induct (fun _ _ => step_keeps_inv) (inv_resetWith hc (Memory.wf_tabulate _)) hrun

/-! ### The net count of calls and returns (rule R18) -/

theorem callDelta_of_terminal {s t : State} (h : s.status ≠ .running ∨ t.status ≠ .running) : callDelta s t = 0 :=
  if_neg fun ⟨hs, ht⟩ => h.elim (· hs) (· ht)

/-- What a completed instruction counts is what it does to the depth. -/
theorem completes_cs_length {i : Instr} {s t : State} (hr : s.status = .running) (hf : fetch s = .ok i)
    (h : Completes i s t) : (t.cs.length : Int) = s.cs.length + callDelta s t := by
  obtain ⟨_, _, ⟨rfl, hst⟩ | ⟨hi, hst⟩⟩ := completes_status h
  · cases h
    simp [callDelta_of_terminal]
  · have hboth : s.status = .running ∧ t.status = .running := ⟨hr, hst.trans hr⟩
    rw [callDelta, if_pos hboth, hf]
    rcases completes_cs h with ⟨o1, rfl, _, hcs⟩ | ⟨rfl, top, hcs⟩ | ⟨hcall, hret, hcs⟩
    · simp [hcs]
    · simp [hcs]
    · split
      · rename_i o1 hi'
        exact absurd (Except.ok.inj hi') (hcall o1)
      · rename_i hi'
        exact absurd (Except.ok.inj hi') hret
      · rw [hcs, add_zero]

theorem step_cs_length {s t : State} (h : step s = .next t) : (t.cs.length : Int) = s.cs.length + callDelta s t := by
  rcases step_cases h with ⟨hn, rfl⟩ | ⟨hr, i, hf, hx⟩ | ⟨_, k, op, _, rfl⟩
  · rw [callDelta_of_terminal (.inl hn), add_zero]
  · rcases exec_cases hx with hc | ⟨k, rfl, _⟩
    · exact completes_cs_length hr hf hc
    · rw [callDelta_of_terminal (.inr (by simp)), add_zero, State.fatalStop_cs]
  · rw [callDelta_of_terminal (.inr (by simp)), add_zero, State.fatalStop_cs]

/-- Settles O54: an induction on the length; each step adds what it counts. -/
theorem callStackDepthIsNetCalls : Obligations.CallStackDepthIsNetCalls := by
  intro k
  induction k with
  | zero =>
    intro s t h
    cases h
    exact (add_zero _).symm
  | succ k ih =>
    intro s t h
    obtain ⟨u, hstep, hrun⟩ := run_succ_eq_next.mp h
    have hnet : netCalls (k + 1) s = callDelta s u + netCalls k u := by rw [netCalls, hstep]
    rw [ih u t hrun, step_cs_length hstep, hnet, add_assoc]

/-! ### The output (rule R21) and the configuration (rule R5) -/

/-- The output grew by at most `k` bytes. -/
def OutputGrows (k : Nat) (s t : State) : Prop :=
  ∃ l : List Byte, t.out = s.out ++ l ∧ l.length ≤ k

theorem OutputGrows.of_eq {s t : State} (k : Nat) (h : t.out = s.out) : OutputGrows k s t :=
  ⟨[], by rw [h, List.append_nil], Nat.zero_le k⟩

theorem OutputGrows.trans {j k : Nat} {s t u : State} (h : OutputGrows j s t) (h' : OutputGrows k t u) :
    OutputGrows (k + j) s u := by
  obtain ⟨l, hl, hj⟩ := h
  obtain ⟨l', hl', hk⟩ := h'
  refine ⟨l ++ l', by rw [hl', hl, List.append_assoc], ?_⟩
  rw [List.length_append]
  omega

/-- PRN appends one byte, a raise and every other instruction none. -/
theorem exec_outputGrows {i : Instr} {s t : State} (h : exec i s = .next t) : OutputGrows 1 s t := by
  rcases exec_cases h with hc | ⟨k, rfl, _⟩
  · rcases (completes_writes hc).out with hout | ⟨o1, rfl⟩
    · exact .of_eq 1 hout
    · obtain ⟨ra, _, rfl⟩ := hc
      exact ⟨[s.regs.get ra], rfl, le_refl _⟩
  · exact .of_eq 1 rfl

theorem step_outputGrows {s t : State} (h : step s = .next t) : OutputGrows 1 s t ∧ t.cfg = s.cfg := by
  rcases step_cases h with ⟨_, rfl⟩ | ⟨_, i, _, hx⟩ | ⟨_, k, op, _, rfl⟩
  · exact ⟨.of_eq 1 rfl, rfl⟩
  · exact ⟨exec_outputGrows hx, exec_cfg hx⟩
  · exact ⟨.of_eq 1 rfl, rfl⟩

/-- Settles O55: an induction on the length; each step appends at most one byte. -/
theorem outputOnlyGrows : Obligations.OutputOnlyGrows := by
  intro k
  induction k with
  | zero =>
    intro s t h
    cases h
    exact ⟨OutputGrows.of_eq 0 rfl, rfl⟩
  | succ k ih =>
    intro s t h
    obtain ⟨u, hstep, hrun⟩ := run_succ_eq_next.mp h
    obtain ⟨hout, hcfg⟩ := step_outputGrows hstep
    obtain ⟨hout', hcfg'⟩ := ih u t hrun
    exact ⟨hout.trans hout', hcfg'.trans hcfg⟩

end Sys2Proof.Machine
end

section
/-! Reset, launch and what the host sees (rules R130 to R139); and the canonical form of memory (log 11). -/

namespace Sys2Proof.Machine

/-! ### The canonical form -/

theorem Memory.read_of_not_mem {m : Memory} {a : Nat} (h : ∀ c ∈ m, c.1 ≠ a) :
    Memory.read m a = Memory.unlisted := by
  induction m with
  | nil => rfl
  | cons c m ih =>
    obtain ⟨k, b⟩ := c
    rw [List.forall_mem_cons] at h
    rw [Memory.read_cons, if_neg h.1, ih h.2]

/-- A canonical memory lists no address past the last cell. -/
theorem Memory.read_of_wf_out {m : Memory} {a : Nat} (hm : Memory.wf m) (ha : 256 ≤ a) :
    Memory.read m a = Memory.unlisted :=
  Memory.read_of_not_mem fun c hc => (Nat.lt_of_lt_of_le (hm.2 c hc).1 ha).ne

/-- Settles O21: past the last cell both read as unlisted, so they read the same everywhere. -/
theorem canonicalMemoriesWithEqualCellsAreEqual : Obligations.CanonicalMemoriesWithEqualCellsAreEqual := by
  intro m m' hm hm' hcells
  refine Memory.eq_of_read hm hm' fun a => ?_
  by_cases ha : a < 256
  · exact hcells a ha
  · rw [Memory.read_of_wf_out hm (by omega), Memory.read_of_wf_out hm' (by omega)]

/-! ### Reset and launch -/

theorem resetWith_get_of_ne (c : Config) {r : Fin 8} (h : r ≠ 7) : (State.resetWith c).regs.get r = 0 :=
  match r, h with
  | 0, _ | 1, _ | 2, _ | 3, _ | 4, _ | 5, _ | 6, _ => rfl
  | 7, h => absurd rfl h

/-- Settles O56: the fields of `State.resetWith` under the default configuration. -/
theorem resetValues : Obligations.ResetValues :=
  ⟨rfl, fun _ => resetWith_get_of_ne Config.default, rfl, rfl, rfl, rfl, rfl, rfl, rfl, fun _ => rfl⟩

theorem launch_eq {c : Config} {image : List Byte} (memRest : Nat → Byte) (hc : c.wf) (hlen : image.length ≤ 256) :
    State.launch c image memRest =
      .next ((State.resetWith c).setMem (Memory.tabulate (fun a => image.getD a (memRest a)) 256 0)) := by
  rw [State.launch, if_pos hc, if_pos hlen]

/-- A cell of the launch state: the image's byte, or the memory rest's past the image (rule R134). -/
theorem read_launch {c : Config} {image : List Byte} {memRest : Nat → Byte} {s : State}
    (h : State.launch c image memRest = .next s) {a : Nat} (ha : a < 256) :
    Memory.read s.mem a = image.getD a (memRest a) := by
  obtain ⟨_, _, rfl⟩ := launch_eq_next h
  exact Memory.read_tabulate _ (Nat.zero_le a) (by omega)

theorem read_launch_image {c : Config} {image : List Byte} {memRest : Nat → Byte} {s : State}
    (h : State.launch c image memRest = .next s) {a : Nat} {b : Byte} (hb : image[a]? = some b) :
    Memory.read s.mem a = b := by
  obtain ⟨_, hlen, _⟩ := launch_eq_next h
  obtain ⟨ha, _⟩ := List.getElem?_eq_some_iff.mp hb
  rw [read_launch h (by omega), List.getD_eq_getElem?_getD, hb, Option.getD_some]

/-- Settles O57: `launch_eq`, and its cells by `read_launch`. -/
theorem launchLoadsImage : Obligations.LaunchLoadsImage := by
  refine fun c image memRest hc => ⟨fun hlen => ?_, fun hlong => ?_⟩
  · have hlaunch := launch_eq memRest hc hlen
    refine ⟨_, hlaunch, rfl, rfl, fun a b hb => read_launch_image hlaunch hb, fun a hge ha => ?_⟩
    rw [read_launch hlaunch ha, List.getD_eq_default _ _ hge]
  · rw [State.launch, if_pos hc, if_neg (by omega)]

/-- Settles O58: the launch state is running at PC 0, where the encoding stands. -/
theorem executionStartsAtAddressZero : Obligations.ExecutionStartsAtAddressZero := by
  intro c i rest memRest s h
  obtain ⟨_, hlen, hs⟩ := launch_eq_next h
  have hpc : s.pc.toNat = 0 := by rw [hs]; rfl
  have hr : s.status = .running := by rw [hs]; rfl
  rw [List.length_append] at hlen
  refine stepRunsDecodedInstruction i s hr (by omega) fun k b hk => ?_
  rw [hpc, Nat.zero_add]
  exact read_launch_image h (by rw [List.getElem?_append_left (List.getElem?_eq_some_iff.mp hk).1, hk])

/-! ### What the host sees -/

/-- Settles O59: `State.snapshot` a field at a time. -/
theorem snapshotContents : Obligations.SnapshotContents := fun _ => ⟨rfl, rfl, rfl, rfl, rfl, rfl⟩

/-- A running core reports nothing (rule R138). -/
theorem endReport_running {s : State} (h : s.status = .running) : s.endReport = none := by
  rw [State.endReport, h]

theorem endReport_halted {s : State} (h : s.status = .halted) :
    s.endReport = some { status := .halted, fault := s.fault, code := s.fault.map fun r => r.kind.code } := by
  rw [State.endReport, h]

/-- Settles O60: the report by the status. -/
theorem endReportAfterEachEnd : Obligations.EndReportAfterEachEnd := by
  refine ⟨fun _ _ _ => rfl, fun s t hnone h => ?_, fun _ => endReport_running, rfl⟩
  cases h
  rw [endReport_halted (State.halt_status s), State.halt_fault, hnone]
  rfl

end Sys2Proof.Machine
end
